-- ==== Sys2Proof/Word.lean ====
section
/-! DEFINITION. The block's word types: widths of 00_scope.md rule R5, lines and per-line arrays of
10_state.md rule R20, and the one canonical form of a keyed list. -/

namespace Sys2Proof

/-- A byte, of a frame (30_encoding.md R82) or of a register (20_memory.md R60). -/
abbrev Byte := BitVec 8

/-- An object id: one byte (00_scope.md R5). -/
abbrev Oid := BitVec 8

/-- A pin identifier: 32 bits (00_scope.md R5). -/
abbrev Pin := BitVec 32

/-- A count, a clock value, a wake time or an interval: 32 bits, modulo 2^32 (00_scope.md R5, R7). -/
abbrev Word := BitVec 32

/-- One operation's encoding (30_encoding.md R80). -/
abbrev Frame := BitVec 96

/-- A line index. Rule R5 bounds N_LINES by 8, so every line is one of these eight numbers; which of
them exist is the configuration's `nLines` (assumption 16). -/
abbrev Line := Fin 8

/-- A per-line array of rule R20 (`X[n]` of rule R7). -/
abbrev PerLine (α : Type) := Vector α 8

/-- The keys of a keyed list rise strictly: the one canonical form of the instance table, of the pin
levels and of the pin-to-line map, so that equal maps are equal data. -/
abbrev Rising {w : Nat} {α : Type} (m : List (BitVec w × α)) : Prop :=
  m.Pairwise (fun a b => a.1 < b.1)

end Sys2Proof
end

