-- ==== Sys2Proof/Config.lean ====
section
/-! DEFINITION. The build parameters of 00_scope.md rule R5, the reference variant REF2, and the free
draws (`choose`) of 00_scope.md rule R8. -/

namespace Sys2Proof

/-- The parameters of 00_scope.md R5. They are fixed at build and no operation writes them
(10_state.md R20); the model carries them in `State.config` so that every statement holds for every
parameter choice (assumption 1). -/
structure Config where
  /-- `N_LINES`. -/
  nLines : Nat
  /-- `PINMAP` on its domain; a pin that is not listed has no line (10_state.md R32). -/
  pinmap : List (Pin × Line)
  /-- `MODE_BIT0(n)`, a bit of EICR (10_state.md R27). -/
  modeBit0 : PerLine (Fin 16)
  /-- `MODE_BIT1(n)`, a bit of EICR (10_state.md R27). -/
  modeBit1 : PerLine (Fin 16)
  /-- `MAX_TACH`. -/
  maxTach : Nat
  /-- `CLOCK_FREQ`: open, and read by no rule (93_implementation_defined.md U18). -/
  clockFreq : Nat
  /-- `LATE_WAKE_FAULT`. -/
  lateWakeFault : Bool
  /-- `LATE_LIMIT`. -/
  lateLimit : Word
  deriving DecidableEq, Repr

/-- The eight line numbers, in order. -/
def allLines : List Line := [0, 1, 2, 3, 4, 5, 6, 7]

/-- The lines the variant has: `0..N_LINES-1`. -/
def Config.lines (c : Config) : List Line := allLines.filter (fun n => n.val < c.nLines)

/-- The EICR bit positions of the lines the variant has. -/
def Config.modeBits (c : Config) : List (Fin 16) :=
  c.lines.map (fun n => c.modeBit0[n]) ++ c.lines.map (fun n => c.modeBit1[n])

/-- What rule R5 asks of the parameters: the bounds of N_LINES and MAX_TACH, a pin map that is
injective (R33) and names only lines that exist, LATE_LIMIT's bounds, and EICR positions that no two
fields share (DEDUCED, assumption 2). The pin map is listed by rising pin (assumption 3). -/
abbrev Config.Wf (c : Config) : Prop :=
  (1 ≤ c.nLines ∧ c.nLines ≤ 8) ∧
  Rising c.pinmap ∧
  (c.pinmap.map Prod.snd).Nodup ∧
  (∀ e ∈ c.pinmap, e.2.val < c.nLines) ∧
  c.modeBits.Nodup ∧
  (1 ≤ c.maxTach ∧ c.maxTach ≤ 256) ∧
  (0 < c.lateLimit.toNat ∧ c.lateLimit.toNat < 2 ^ 31)

/-- The default position of `MODE_BIT0(n)`: bit 2n (00_scope.md R5). -/
def defaultModeBit0 : PerLine (Fin 16) := #v[0, 2, 4, 6, 8, 10, 12, 14]

/-- The default position of `MODE_BIT1(n)`: bit 2n+1 (00_scope.md R5). -/
def defaultModeBit1 : PerLine (Fin 16) := #v[1, 3, 5, 7, 9, 11, 13, 15]

/-- REF2, the reference variant of 00_scope.md R5. `clockFreq` and `lateLimit` are open there and
nothing reads them in REF2 (DESIGN CHOICE, assumption 4). -/
def Config.ref2 : Config where
  nLines := 2
  pinmap := [(26#32, 0), (27#32, 1)]
  modeBit0 := defaultModeBit0
  modeBit1 := defaultModeBit1
  maxTach := 4
  clockFreq := 1
  lateWakeFault := false
  lateLimit := 1#32

/-- The free draws of the block (00_scope.md R8, `choose s in {0,1}`): the k-th draw of a run. It has
no body on purpose, so nothing can be proved of its value (assumption 5). It serves the pending-flag
hazard of 40_line_controller.md R116 and the late-wake draw of 42_tach_timer.md R191. -/
opaque Config.freeBit : Nat → Bool

end Sys2Proof
end

