-- ==== Sys2Proof/Syntax.lean ====
section
/-! DEFINITION. The operations of the block: one constructor per row of the opcode table
(30_encoding.md rule R85), its fields as the rule names them. -/

namespace Sys2Proof

/-- One operation (30_encoding.md R85). The fields are the frame's fields as they stand
(R83): `hsel` and `level` are the whole byte F2, and `WellFormed` says which values are legal. -/
inductive Instr where
  /-- 0x01, host command (41_tachometer.md R150). -/
  | configTachometer (oid : Oid) (pin : Pin)
  /-- 0x02, host command (42_tach_timer.md R190). -/
  | updateTachTimer (clock : Word) (restTicks : Word)
  /-- 0x03, host command (41_tachometer.md R151). -/
  | setTachIrqState (oid : Oid) (mode : Byte)
  /-- 0x10, internal (40_line_controller.md R110). -/
  | lineRegister (owner : Oid) (hsel : Byte) (pin : Pin)
  /-- 0x11, internal (40_line_controller.md R111). -/
  | lineSetTriggerMode (line : Byte) (mode : Byte)
  /-- 0x12, internal (40_line_controller.md R112). -/
  | lineUnregister (line : Byte)
  /-- 0x20, event of the pin environment (40_line_controller.md R113). -/
  | pinChange (level : Byte) (pin : Pin)
  /-- 0x21, event of the clock (42_tach_timer.md R192). -/
  | clockTick
  /-- 0x22, event of the interrupt context (40_line_controller.md R115). -/
  | lineIsr (line : Byte)
  /-- 0x23, event of the interrupt context (42_tach_timer.md R191). -/
  | timerIsr
  /-- 0x24, event of the task context (41_tachometer.md R153). -/
  | drainTask
  /-- 0x25, event of the task context (41_tachometer.md R155). -/
  | drainStep (oid : Oid)
  /-- 0x81, report (41_tachometer.md R154). -/
  | tachResponse (oid : Oid) (pulseCount : Word)
  deriving DecidableEq, Repr

end Sys2Proof
end

