-- ==== Sys2Proof/WellFormed.lean ====
section
/-! DEFINITION. Which operations a legal frame can hold (30_encoding.md rule R87). -/

namespace Sys2Proof

/-- The value constraints of 30_encoding.md R87 that are part of legality: `hsel` of line_register is
0 or 1 and `level` of pin_change is 0 or 1. A mode above 4 and a line that does not exist are legal
encodings; the operation checks them when it executes. -/
def Instr.wellFormed : Instr → Bool
  | .configTachometer _ _ => true
  | .updateTachTimer _ _ => true
  | .setTachIrqState _ _ => true
  | .lineRegister _ hsel _ => hsel ≤ 1#8
  | .lineSetTriggerMode _ _ => true
  | .lineUnregister _ => true
  | .pinChange level _ => level ≤ 1#8
  | .clockTick => true
  | .lineIsr _ => true
  | .timerIsr => true
  | .drainTask => true
  | .drainStep _ => true
  | .tachResponse _ _ => true

end Sys2Proof
end

