-- ==== Sys2Proof/Decode.lean ====
section
/-! DEFINITION. Frames: their fields and bytes (30_encoding.md rules R80 to R83), the decoder, total on
every frame and rejecting by name (R85 to R88), the encoder, and the text form (R90). -/

namespace Sys2Proof

/-! ### Fields and bytes -/

/-- OP, bits 7:0 (R81). -/
def Frame.op (f : Frame) : Byte := f.extractLsb' 0 8
/-- F1, bits 15:8 (R81). -/
def Frame.f1 (f : Frame) : Byte := f.extractLsb' 8 8
/-- F2, bits 23:16 (R81). -/
def Frame.f2 (f : Frame) : Byte := f.extractLsb' 16 8
/-- RSV, bits 31:24 (R81). -/
def Frame.rsv (f : Frame) : Byte := f.extractLsb' 24 8
/-- ARG0, bits 63:32 (R81). -/
def Frame.arg0 (f : Frame) : Word := f.extractLsb' 32 32
/-- ARG1, bits 95:64 (R81). -/
def Frame.arg1 (f : Frame) : Word := f.extractLsb' 64 32

/-- The frame with the given fields, RSV being 0 as rule R86 asks. -/
def packFrame (op f1 f2 : Byte) (arg0 arg1 : Word) : Frame :=
  arg1 ++ arg0 ++ (0#8) ++ f2 ++ f1 ++ op

/-- Byte k of a frame: `f[8k+7:8k]` (R82). -/
def Frame.byte (f : Frame) (k : Nat) : Byte := f.extractLsb' (8 * k) 8

/-- A frame as it is sent and stored: bytes 0 to 11 (R82). -/
def Frame.toBytes (f : Frame) : List Byte :=
  [f.byte 0, f.byte 1, f.byte 2, f.byte 3, f.byte 4, f.byte 5,
   f.byte 6, f.byte 7, f.byte 8, f.byte 9, f.byte 10, f.byte 11]

/-! ### Decoding -/

/-- Why a frame is illegal, or not accepted (R87, R88). Executing such a frame raises
`Fatal(InvalidCommand)`. -/
inductive DecodeReject where
  /-- OP is not listed in rule R85. -/
  | reservedOpcode
  /-- A bit the opcode does not use is 1 (R86). -/
  | reservedBits
  /-- `hsel` of line_register is above 1 (R87). -/
  | badHsel
  /-- `level` of pin_change is above 1 (R87). -/
  | badLevel
  /-- A legal frame outside the host-command space, from the host (R88). -/
  | notHostSpace
  /-- Fewer than the 12 bytes of a frame (R80). -/
  | shortFrame
  deriving DecidableEq, Repr

/-- The operation, when the reserved fields of its opcode are 0 (R86). -/
def whenReservedZero (reservedZero : Bool) (i : Instr) : Except DecodeReject Instr :=
  if reservedZero then .ok i else .error .reservedBits

/-- The decoder (R85 to R87). The opcodes and the reserved fields of each are those of rule R86's
table. -/
def decode (f : Frame) : Except DecodeReject Instr :=
  if f.op = 0x01#8 then
    whenReservedZero (f.f2 == 0 && f.rsv == 0 && f.arg1 == 0) (.configTachometer f.f1 f.arg0)
  else if f.op = 0x02#8 then
    whenReservedZero (f.f1 == 0 && f.f2 == 0 && f.rsv == 0) (.updateTachTimer f.arg0 f.arg1)
  else if f.op = 0x03#8 then
    whenReservedZero (f.rsv == 0 && f.arg0 == 0 && f.arg1 == 0) (.setTachIrqState f.f1 f.f2)
  else if f.op = 0x10#8 then
    if f.f2 ≤ 1#8 then
      whenReservedZero (f.rsv == 0 && f.arg1 == 0) (.lineRegister f.f1 f.f2 f.arg0)
    else .error .badHsel
  else if f.op = 0x11#8 then
    whenReservedZero (f.rsv == 0 && f.arg0 == 0 && f.arg1 == 0) (.lineSetTriggerMode f.f1 f.f2)
  else if f.op = 0x12#8 then
    whenReservedZero (f.f2 == 0 && f.rsv == 0 && f.arg0 == 0 && f.arg1 == 0) (.lineUnregister f.f1)
  else if f.op = 0x20#8 then
    if f.f2 ≤ 1#8 then
      whenReservedZero (f.f1 == 0 && f.rsv == 0 && f.arg1 == 0) (.pinChange f.f2 f.arg0)
    else .error .badLevel
  else if f.op = 0x21#8 then
    whenReservedZero (f.f1 == 0 && f.f2 == 0 && f.rsv == 0 && f.arg0 == 0 && f.arg1 == 0) .clockTick
  else if f.op = 0x22#8 then
    whenReservedZero (f.f2 == 0 && f.rsv == 0 && f.arg0 == 0 && f.arg1 == 0) (.lineIsr f.f1)
  else if f.op = 0x23#8 then
    whenReservedZero (f.f1 == 0 && f.f2 == 0 && f.rsv == 0 && f.arg0 == 0 && f.arg1 == 0) .timerIsr
  else if f.op = 0x24#8 then
    whenReservedZero (f.f1 == 0 && f.f2 == 0 && f.rsv == 0 && f.arg0 == 0 && f.arg1 == 0) .drainTask
  else if f.op = 0x25#8 then
    whenReservedZero (f.f2 == 0 && f.rsv == 0 && f.arg0 == 0 && f.arg1 == 0) (.drainStep f.f1)
  else if f.op = 0x81#8 then
    whenReservedZero (f.f2 == 0 && f.rsv == 0 && f.arg1 == 0) (.tachResponse f.f1 f.arg0)
  else .error .reservedOpcode

/-- The host-command space: OP 0x01, 0x02 and 0x03 (R85, R88). -/
def Frame.hostSpace (f : Frame) : Bool := f.op == 0x01#8 || f.op == 0x02#8 || f.op == 0x03#8

/-- What the host channel accepts of a frame the host sent (R88). -/
def decodeHost (f : Frame) : Except DecodeReject Instr :=
  if f.hostSpace then decode f
  else match decode f with
    | .ok _ => .error .notHostSpace
    | .error r => .error r

/-- The frame of the first 12 bytes, byte 0 first, and the bytes after them (R82). -/
def frameOfBytes : List Byte → Option (Frame × List Byte)
  | b0 :: b1 :: b2 :: b3 :: b4 :: b5 :: b6 :: b7 :: b8 :: b9 :: b10 :: b11 :: rest =>
    some (b11 ++ b10 ++ b9 ++ b8 ++ b7 ++ b6 ++ b5 ++ b4 ++ b3 ++ b2 ++ b1 ++ b0, rest)
  | _ => none

/-- The operation of the first frame of a byte string, and the bytes after it. -/
def decodeBytes (bs : List Byte) : Except DecodeReject (Instr × List Byte) :=
  match frameOfBytes bs with
  | none => .error .shortFrame
  | some (f, rest) => (decode f).map (fun i => (i, rest))

/-- The frame whose first `nbits` bits are `w`'s, as spec/opcode_table.json numbers them, every bit
above being 0. -/
def tableFrame (nbits w : Nat) : Frame := BitVec.ofNat 96 (w % 2 ^ nbits)

/-- The operation the decoder reads from a row of spec/opcode_table.json, laid out as bytes. -/
def decodeTableWord (nbits w : Nat) : Option Instr :=
  match decodeBytes (tableFrame nbits w).toBytes with
  | .ok (i, _) => some i
  | .error _ => none

/-! ### Encoding -/

/-- The opcode of an operation (R85). -/
def Instr.opcode : Instr → Byte
  | .configTachometer _ _ => 0x01
  | .updateTachTimer _ _ => 0x02
  | .setTachIrqState _ _ => 0x03
  | .lineRegister _ _ _ => 0x10
  | .lineSetTriggerMode _ _ => 0x11
  | .lineUnregister _ => 0x12
  | .pinChange _ _ => 0x20
  | .clockTick => 0x21
  | .lineIsr _ => 0x22
  | .timerIsr => 0x23
  | .drainTask => 0x24
  | .drainStep _ => 0x25
  | .tachResponse _ _ => 0x81

/-- The frame of an operation: its fields where rule R85 puts them, every other bit 0 (R86). -/
def encode : Instr → Frame
  | .configTachometer oid pin => packFrame 0x01 oid 0 pin 0
  | .updateTachTimer clock restTicks => packFrame 0x02 0 0 clock restTicks
  | .setTachIrqState oid mode => packFrame 0x03 oid mode 0 0
  | .lineRegister owner hsel pin => packFrame 0x10 owner hsel pin 0
  | .lineSetTriggerMode line mode => packFrame 0x11 line mode 0 0
  | .lineUnregister line => packFrame 0x12 line 0 0 0
  | .pinChange level pin => packFrame 0x20 0 level pin 0
  | .clockTick => packFrame 0x21 0 0 0 0
  | .lineIsr line => packFrame 0x22 line 0 0 0
  | .timerIsr => packFrame 0x23 0 0 0 0
  | .drainTask => packFrame 0x24 0 0 0 0
  | .drainStep oid => packFrame 0x25 oid 0 0 0
  | .tachResponse oid pulseCount => packFrame 0x81 oid 0 pulseCount 0

/-! ### The text form -/

/-- The mnemonic of an operation (R85). -/
def Instr.mnemonic : Instr → String
  | .configTachometer _ _ => "config_tachometer"
  | .updateTachTimer _ _ => "update_tach_timer"
  | .setTachIrqState _ _ => "set_tach_irq_state"
  | .lineRegister _ _ _ => "line_register"
  | .lineSetTriggerMode _ _ => "line_set_trigger_mode"
  | .lineUnregister _ => "line_unregister"
  | .pinChange _ _ => "pin_change"
  | .clockTick => "clock_tick"
  | .lineIsr _ => "line_isr"
  | .timerIsr => "timer_isr"
  | .drainTask => "drain_task"
  | .drainStep _ => "drain_step"
  | .tachResponse _ _ => "tach_response"

/-- The fields of an operation by the names of rule R90, in the order of rule R85's table. -/
def Instr.operands : Instr → List (String × Nat)
  | .configTachometer oid pin => [("oid", oid.toNat), ("pin", pin.toNat)]
  | .updateTachTimer clock restTicks => [("clock", clock.toNat), ("rest_ticks", restTicks.toNat)]
  | .setTachIrqState oid mode => [("oid", oid.toNat), ("mode", mode.toNat)]
  | .lineRegister owner hsel pin =>
    [("oid", owner.toNat), ("hsel", hsel.toNat), ("pin", pin.toNat)]
  | .lineSetTriggerMode line mode => [("line", line.toNat), ("mode", mode.toNat)]
  | .lineUnregister line => [("line", line.toNat)]
  | .pinChange level pin => [("level", level.toNat), ("pin", pin.toNat)]
  | .clockTick => []
  | .lineIsr line => [("line", line.toNat)]
  | .timerIsr => []
  | .drainTask => []
  | .drainStep oid => [("oid", oid.toNat)]
  | .tachResponse oid pulseCount => [("oid", oid.toNat), ("pulse_count", pulseCount.toNat)]

/-- The text form of an operation (R90), its values in decimal (assumption 17). -/
def Instr.text (i : Instr) : String :=
  i.mnemonic ++ String.join (i.operands.map (fun o => " " ++ o.1 ++ "=" ++ toString o.2))

end Sys2Proof
end

