-- ==== Sys2Proof/Machine/State.lean ====
section
/-! DEFINITION. The state of the block (10_state.md rule R20), the reasons a step can stop, and the
state after reset (10_state.md rule R51). -/

namespace Sys2Proof.Machine

/-- An armed trigger mode, by the source's names (30_encoding.md R84; 10_state.md R38). -/
inductive Mode where
  | levelLow
  | anyEdge
  | fallingEdge
  | risingEdge
  deriving DecidableEq, Repr

/-- A callback a line's service routine can invoke (10_state.md R25). -/
inductive Handler where
  | noop
  | tachCount
  deriving DecidableEq, Repr

/-- One pulse-counter instance (10_state.md R35 to R38). -/
structure Tach where
  line : Line
  pulseCount : Word
  enabled : Bool
  activeMode : Option Mode
  deriving DecidableEq, Repr

/-- The codes of a fatal error (60_exceptions.md R221). -/
inductive FaultCode where
  | unsupportedPin
  | invalidMode
  | unknownOid
  | duplicateOid
  | invalidCommand
  | capacityExceeded
  | invalidLine
  | lateWake
  deriving DecidableEq, Repr

/-- Whose step comes next: one entry of the schedule (00_scope.md R6, 20_memory.md R68). The schedule
is the model's own plain data for the free choice of rule R68 (assumption 6). -/
inductive Turn where
  /-- The host sends a frame on the host channel. -/
  | hostSends (f : Frame)
  /-- The task context takes up the oldest command the host has sent. -/
  | runCommand
  /-- The agent of rule R85 takes the step that the frame names; a frame of the internal or the report
  space fires its operation directly (assumption 18). A host command is no such step: it comes through
  the host channel (20_memory.md R75, assumption 19). -/
  | agent (f : Frame)
  /-- The host removes the oldest report (10_state.md R45). -/
  | hostTakes
  /-- The platform resets the block (70_reset_and_hazards.md R260); `clock` and `high`, the pins that
  are high, are the two free draws of 10_state.md R51. -/
  | reset (clock : Word) (high : List Pin)
  deriving DecidableEq, Repr

/-- The state of the block: the record of 10_state.md R20 field by field, then the build parameters
and the three fields that are the model's own. -/
@[ext]
structure State where
  /-- `TRIG` (R21). -/
  trig : PerLine (BitVec 2)
  /-- `EN` (R22). -/
  en : PerLine Bool
  /-- `PF` (R23). -/
  pf : PerLine Bool
  /-- `OWNER` (R24). -/
  owner : PerLine (Option Oid)
  /-- `HANDLER` (R25). -/
  handler : PerLine Handler
  /-- `LEVEL`, by pin, rising (R31). -/
  level : List (Pin × Bool)
  /-- `TACH`, the configured oids, rising (R34). -/
  tach : List (Oid × Tach)
  /-- `TT_ACTIVE` (R40). -/
  ttActive : Bool
  /-- `TT_WAKE` (R41). -/
  ttWake : Word
  /-- `TT_REST` (R42). -/
  ttRest : Word
  /-- `WAKE_FLAG` (R43). -/
  wakeFlag : Bool
  /-- `DRAIN_LEFT`, the set as a list (R52). -/
  drainLeft : Option (List Oid)
  /-- `CLOCK` (R44). -/
  clock : Word
  /-- `OUT`, oldest first (R45). -/
  out : List Frame
  /-- `FAULT` (R46). -/
  fault : Option (FaultCode × Frame)
  /-- The build parameters (00_scope.md R5); no operation writes them. -/
  config : Config
  /-- The model's own: host frames sent and not yet executed, oldest first (20_memory.md R75). -/
  inbox : List Frame
  /-- The model's own: the schedule, the next turn first. -/
  turns : List Turn
  /-- The model's own: how many free draws the run has taken. -/
  draws : Nat
  deriving DecidableEq, Repr

/-- Why a step stops with a fault. -/
inductive Fault where
  /-- Raised by `step` alone: the block is halted by a fatal error (60_exceptions.md R222) and the
  schedule holds no further turn, so no reset can restart it (assumption 14). Safe: the spec has no
  step there. -/
  | halted
  deriving DecidableEq, Repr

/-- Why there is no transition. -/
inductive Refusal where
  /-- An instruction without a meaning, rejected by name in `exec`; no arm of this model does so.
  Safe. -/
  | notModelled (mnemonic : String)
  /-- Raised by `regRead` and `regWrite`: a register access that 20_memory.md R63 gives no meaning
  (93_implementation_defined.md U1: refuse). No operation issues one. Safe. -/
  | registerAccess (offset width : Nat)
  deriving DecidableEq, Repr

/-- What an operation or a step answers. -/
abbrev Result := Host.Outcome State Fault Refusal

/-- The state after reset (10_state.md R51) of the variant `c`, for the two values the rule leaves to
a free draw: the clock, and the set of mapped pins that are high. -/
def State.resetWith (c : Config) (clock : Word) (high : List Pin) : State where
  trig := Vector.replicate 8 0#2
  en := Vector.replicate 8 false
  pf := Vector.replicate 8 false
  owner := Vector.replicate 8 none
  handler := Vector.replicate 8 .noop
  level := c.pinmap.map (fun e => (e.1, high.contains e.1))
  tach := []
  ttActive := false
  ttWake := 0
  ttRest := 0
  wakeFlag := false
  drainLeft := none
  clock := clock
  out := []
  fault := none
  config := c
  inbox := []
  turns := []
  draws := 0

/-- The machine right after reset, with nothing scheduled. That its variant is REF2 (00_scope.md R5 leaves
the parameters open) is a DESIGN CHOICE (assumption 20), and so are the clock at 0 and every pin low,
two values the spec leaves free (assumption 7). -/
def State.reset : State := State.resetWith Config.ref2 0 []

end Sys2Proof.Machine
end

