-- ==== Sys2Proof/Machine/Operands.lean ====
section
/-! DEFINITION. Operand forms: what an operation makes of a pin, a line handle, a mode, a handler
select or a level (10_state.md rule R32, 30_encoding.md rules R84 and R87), and the number of a fault
code (60_exceptions.md rule R221). -/

namespace Sys2Proof.Machine

/-- `PINMAP(p)` (10_state.md R32). -/
def lineOfPin (c : Config) (p : Pin) : Option Line := c.pinmap.lookup p

/-- `pin_of(n)`, the pin that maps to line n, if there is one (10_state.md R32). -/
def pinOf (c : Config) (n : Line) : Option Pin :=
  (c.pinmap.find? (fun e => e.2 == n)).map Prod.fst

/-- Whether line n exists: `n < N_LINES` (00_scope.md R5). -/
def hasLine (c : Config) (n : Line) : Bool := n.val < c.nLines

/-- The line a handle names, if it is below `N_LINES` (40_line_controller.md R111, R112, R115). -/
def lineOfHandle (c : Config) (h : Byte) : Option Line :=
  if small : h.toNat < 8 then
    if h.toNat < c.nLines then some ⟨h.toNat, small⟩ else none
  else none

/-- A mode's number, its trigger-mode field `mode[1:0]` (30_encoding.md R84, 10_state.md R21). -/
def Mode.bits : Mode → BitVec 2
  | .levelLow => 0b00#2
  | .anyEdge => 0b01#2
  | .fallingEdge => 0b10#2
  | .risingEdge => 0b11#2

/-- What a mode operand asks for, when it is 0 to 4 (30_encoding.md R84): `some (some k)` arms mode k,
`some none` disables, and `none` is a value above 4. -/
def modeOf (m : Byte) : Option (Option Mode) :=
  if m = 0 then some (some .levelLow)
  else if m = 1 then some (some .anyEdge)
  else if m = 2 then some (some .fallingEdge)
  else if m = 3 then some (some .risingEdge)
  else if m = 4 then some none
  else none

/-- The handler that `hsel` selects, when it is 0 or 1 (40_line_controller.md R110, 30_encoding.md
R87). -/
def handlerOf (hsel : Byte) : Option Handler :=
  if hsel = 0 then some .noop
  else if hsel = 1 then some .tachCount
  else none

/-- The level a pin_change gives, when it is 0 or 1 (40_line_controller.md R113, 30_encoding.md R87). -/
def levelOf (v : Byte) : Option Bool :=
  if v = 0 then some false
  else if v = 1 then some true
  else none

/-- The number of a fault code (60_exceptions.md R221). -/
def FaultCode.number : FaultCode → Nat
  | .unsupportedPin => 1
  | .invalidMode => 2
  | .unknownOid => 3
  | .duplicateOid => 4
  | .invalidCommand => 5
  | .capacityExceeded => 6
  | .invalidLine => 7
  | .lateWake => 8

end Sys2Proof.Machine
end

