-- ==== Sys2Proof/Machine/Ops.lean ====
section
/-! DEFINITION. The shared operations: per-line and per-oid accesses, the fatal error and the reset
(60_exceptions.md rules R220 and R222, 70_reset_and_hazards.md rule R260), the register space
(20_memory.md), the trigger-mode sequence (40_line_controller.md rule R111) and the host channel. -/

namespace Sys2Proof.Machine

/-! ### Keyed lists -/

/-- The keyed list with the value at `k` replaced, or entered in its place by rising key. -/
def keyPut {w : Nat} {α : Type} (k : BitVec w) (v : α) : List (BitVec w × α) → List (BitVec w × α)
  | [] => [(k, v)]
  | (k', v') :: rest =>
    if k < k' then (k, v) :: (k', v') :: rest
    else if k = k' then (k, v) :: rest
    else (k', v') :: keyPut k v rest

/-- `TACH[oid]` (10_state.md R34). -/
def tachOf (s : State) (oid : Oid) : Option Tach := s.tach.lookup oid

/-- `TACH[oid] <- t`. -/
def putTach (oid : Oid) (t : Tach) (s : State) : State := { s with tach := keyPut oid t s.tach }

/-- `LEVEL[p]` of a mapped pin (10_state.md R31). The invariant lists every mapped pin; a pin that is
not listed reads low (assumption 7). -/
def levelAt (s : State) (p : Pin) : Bool := (s.level.lookup p).getD false

/-- `LEVEL[p] <- v`. -/
def putLevel (p : Pin) (v : Bool) (s : State) : State := { s with level := keyPut p v s.level }

/-! ### Per-line fields -/

/-- `EN[n] <- v` (10_state.md R22). -/
def setEn (n : Line) (v : Bool) (s : State) : State := { s with en := s.en.set n.val v n.isLt }

/-- `PF[n] <- v` (10_state.md R23). -/
def setPf (n : Line) (v : Bool) (s : State) : State := { s with pf := s.pf.set n.val v n.isLt }

/-- `OWNER[n]` and `HANDLER[n]` together, as one atomic unit (10_state.md R26, 20_memory.md R64c). -/
def bindLine (n : Line) (o : Option Oid) (h : Handler) (s : State) : State :=
  { s with owner := s.owner.set n.val o n.isLt, handler := s.handler.set n.val h n.isLt }

/-- A write of line n's trigger-mode bits. One that changes them may set the line's pending flag, by a
free draw (40_line_controller.md R116, 20_memory.md R65); one that does not change them sets
nothing. -/
def setTrig (n : Line) (v : BitVec 2) (s : State) : State :=
  if s.trig[n] = v then s
  else
    { s with
      trig := s.trig.set n.val v n.isLt
      pf := s.pf.set n.val (s.pf[n] || Config.freeBit s.draws) n.isLt
      draws := s.draws + 1 }

/-- The trigger-mode sequence of 40_line_controller.md R111, field level: disable the line, clear its
bits, and for an armed mode program the bits, clear the pending flag and enable the line. -/
def programLine (n : Line) (m : Option Mode) (s : State) : State :=
  let cleared := setTrig n 0b00#2 (setEn n false s)
  match m with
  | none => cleared
  | some k => setEn n true (setPf n false (setTrig n k.bits cleared))

/-! ### Running, and the fatal error -/

/-- No operation takes a step while `FAULT != none` (60_exceptions.md R222): a step that is not taken
leaves the state as it is (assumption 8). -/
def whenRunning (s : State) (r : Result) : Result := if s.fault.isSome then .next s else r

/-- A task-context step other than the drain's own: none is taken while a drain is in progress
(10_state.md R52, 20_memory.md R75). -/
def whenTask (s : State) (r : Result) : Result :=
  whenRunning s (if s.drainLeft.isSome then .next s else r)

/-- `raise Fatal(code)` by the operation with frame `f` (60_exceptions.md R220): `FAULT` is written and
nothing else. It is the block's one exception, and it has no return but `resetBlock`. -/
def raiseFatal (code : FaultCode) (f : Frame) (s : State) : State :=
  { s with fault := some (code, f) }

/-- The end of an operation whose checks all come before its first write: its next state, or the fatal
error it raised over the state it started from (60_exceptions.md R220: faults are precise). -/
def settle (f : Frame) (s : State) : Except FaultCode State → Result
  | .ok t => .next t
  | .error code => .next (raiseFatal code f s)

/-- Executing an illegal frame, or a frame the host may not send (30_encoding.md R87, R88). -/
def illegalFrame (f : Frame) (s : State) : Result :=
  whenRunning s (.next (raiseFatal .invalidCommand f s))

/-- Reset (70_reset_and_hazards.md R260): every piece of state takes its value of 10_state.md R51,
`FAULT` among them. The schedule of what comes later and the count of draws are the model's own and
go on (assumption 9). -/
def resetBlock (clock : Word) (high : List Pin) (s : State) : State :=
  { State.resetWith s.config clock high with turns := s.turns, draws := s.draws }

/-! ### The report and the host channel -/

/-- `emit(frame)`: the frame at the tail of `OUT` (00_scope.md R8, 10_state.md R45). -/
def emit (f : Frame) (s : State) : State := { s with out := s.out ++ [f] }

/-- The host sends a frame: it waits behind those sent before it (20_memory.md R75). The host takes no
step while the block is halted (60_exceptions.md R222). -/
def hostSends (f : Frame) (s : State) : State :=
  if s.fault.isSome then s else { s with inbox := s.inbox ++ [f] }

/-- The host removes the oldest report, if there is one (10_state.md R45). -/
def hostTakes (s : State) : State := if s.fault.isSome then s else { s with out := s.out.tail }

/-- The command the task context takes up: the oldest one the host has sent, unless a drain is in
progress or the block is halted (20_memory.md R75, 10_state.md R52, 60_exceptions.md R222). -/
def takeCommand (s : State) : Option (Frame × State) :=
  if s.fault.isSome || s.drainLeft.isSome then none
  else match s.inbox with
    | [] => none
    | f :: rest => some (f, { s with inbox := rest })

/-! ### The register space (10_state.md §3, 20_memory.md R60 to R65) -/

/-- The field of one line, as bits of a register. -/
def orLines {w : Nat} (c : Config) (field : Line → BitVec w) : BitVec w :=
  c.lines.foldl (fun acc n => acc ||| field n) 0#w

/-- One bit at position `b`. -/
def bitAt (w : Nat) (v : Bool) (b : Nat) : BitVec w := if v then 1#w <<< b else 0#w

/-- EICR as a read gives it (10_state.md R27): each line's `TRIG` bits at its two positions, every
other bit 0 (R30). -/
def eicr (s : State) : BitVec 16 :=
  orLines s.config (fun n =>
    bitAt 16 (s.trig[n].getLsbD 0) s.config.modeBit0[n].val |||
    bitAt 16 (s.trig[n].getLsbD 1) s.config.modeBit1[n].val)

/-- EIMSK as a read gives it (10_state.md R28, R30). -/
def eimsk (s : State) : Byte := orLines s.config (fun n => bitAt 8 s.en[n] n.val)

/-- EIFR as a read gives it (10_state.md R29, R30). -/
def eifr (s : State) : Byte := orLines s.config (fun n => bitAt 8 s.pf[n] n.val)

/-- The `TRIG` field that a value of EICR holds for line n (10_state.md R27). -/
def trigField (c : Config) (v : BitVec 16) (n : Line) : BitVec 2 :=
  bitAt 2 (v.getLsbD c.modeBit0[n].val) 0 ||| bitAt 2 (v.getLsbD c.modeBit1[n].val) 1

/-- A write of EICR replaces the `TRIG` fields (10_state.md R27); bits of no line are ignored (R30). -/
def writeEicr (v : BitVec 16) (s : State) : State :=
  s.config.lines.foldl (fun t n => setTrig n (trigField s.config v n) t) s

/-- A write of EIMSK replaces the enables (10_state.md R28, R30). -/
def writeEimsk (v : Byte) (s : State) : State :=
  s.config.lines.foldl (fun t n => setEn n (v.getLsbD n.val) t) s

/-- A write of EIFR clears the flags whose bits are 1 (10_state.md R29, R30). -/
def writeEifr (v : Byte) (s : State) : State :=
  s.config.lines.foldl (fun t n => if v.getLsbD n.val then setPf n false t else t) s

/-- `RegRead(offset, width)` (20_memory.md R61 to R63), the value zero-extended to 16 bits. Reads have
no side effect (R65). -/
def regRead (offset width : Nat) (s : State) : Except Refusal (BitVec 16) :=
  if offset = 0 ∧ width = 2 then .ok (eicr s)
  else if offset = 0 ∧ width = 1 then .ok (((eicr s).extractLsb' 0 8).setWidth 16)
  else if offset = 1 ∧ width = 1 then .ok (((eicr s).extractLsb' 8 8).setWidth 16)
  else if offset = 2 ∧ width = 1 then .ok ((eimsk s).setWidth 16)
  else if offset = 3 ∧ width = 1 then .ok ((eifr s).setWidth 16)
  else .error (.registerAccess offset width)

/-- `RegWrite(offset, width, v)` (20_memory.md R61 to R63). A one-byte write of EICR replaces that half
and leaves the other as it reads (R62). -/
def regWrite (offset width : Nat) (v : BitVec 16) (s : State) : Except Refusal State :=
  if offset = 0 ∧ width = 2 then .ok (writeEicr v s)
  else if offset = 0 ∧ width = 1 then
    .ok (writeEicr ((eicr s).extractLsb' 8 8 ++ v.extractLsb' 0 8) s)
  else if offset = 1 ∧ width = 1 then
    .ok (writeEicr (v.extractLsb' 0 8 ++ (eicr s).extractLsb' 0 8) s)
  else if offset = 2 ∧ width = 1 then .ok (writeEimsk (v.setWidth 8) s)
  else if offset = 3 ∧ width = 1 then .ok (writeEifr (v.setWidth 8) s)
  else .error (.registerAccess offset width)

/-- The trigger-mode sequence of 40_line_controller.md R111, register level, as the rule writes it. The
operations use `programLine`; that the two agree is a statement of the package. -/
def programLineByRegisters (n : Line) (m : Option Mode) (s : State) : Except Refusal State := do
  let b0 := s.config.modeBit0[n].val
  let b1 := s.config.modeBit1[n].val
  let s1 ← regWrite 2 1 ((← regRead 2 1 s) &&& ~~~(1#16 <<< n.val)) s
  let s2 ← regWrite 0 2 ((← regRead 0 2 s1) &&& ~~~((1#16 <<< b0) ||| (1#16 <<< b1))) s1
  match m with
  | none => return s2
  | some k =>
    let new := bitAt 16 (k.bits.getLsbD 0) b0 ||| bitAt 16 (k.bits.getLsbD 1) b1
    let s3 ← regWrite 0 2 ((← regRead 0 2 s2) ||| new) s2
    let s4 ← regWrite 3 1 (1#16 <<< n.val) s3
    regWrite 2 1 ((← regRead 2 1 s4) ||| (1#16 <<< n.val)) s4

end Sys2Proof.Machine
end

