-- ==== Sys2Proof/Machine/Flags.lean ====
section
/-! DEFINITION. The conditions: which pin changes set a pending flag (40_line_controller.md rule R113),
when a line requests (R114), and when a wake time is due or late (42_tach_timer.md rules R193, R191).
The block has no arithmetic flags (10_state.md rule R49). -/

namespace Sys2Proof.Machine

/-- Whether a level change from `old` to `new` sets `PF` in trigger mode `trig`
(40_line_controller.md R113). -/
def latches (trig : BitVec 2) (old new : Bool) : Bool :=
  if trig = 0b00#2 then false
  else if trig = 0b01#2 then old != new
  else if trig = 0b10#2 then old && !new
  else !old && new

/-- The level of the line's pin is low; a line with no pin has no level (10_state.md R32). -/
def pinLow (s : State) (n : Line) : Bool :=
  match pinOf s.config n with
  | none => false
  | some p => !levelAt s p

/-- `REQ(n)` (40_line_controller.md R114). -/
def requests (s : State) (n : Line) : Bool :=
  s.en[n] && if s.trig[n] = 0b00#2 then pinLow s n else s.pf[n]

/-- `due(now, w)` (42_tach_timer.md R193). -/
def due (now w : Word) : Bool := (now - w).toNat < 2 ^ 31

/-- The expiry runs `LATE_LIMIT` or more ticks after its wake time, and the variant may fault on it
(42_tach_timer.md R191). -/
def mayFaultLate (s : State) : Bool :=
  s.config.lateWakeFault && s.config.lateLimit.toNat ≤ (s.clock - s.ttWake).toNat

end Sys2Proof.Machine
end

