-- ==== Sys2Proof/Machine/TachTimer.lean ====
section
/-! DEFINITION. The shared periodic timer and the clock (42_tach_timer.md): update_tach_timer,
timer_isr and clock_tick. -/

namespace Sys2Proof.Machine

/-- update_tach_timer (R190). -/
def execUpdateTachTimer (clock restTicks : Word) (s : State) : Result :=
  whenTask s
    (.next { s with ttActive := restTicks != 0, ttWake := clock, ttRest := restTicks })

/-- The expiry's effect (R191): the additive wake time and the wake signal. -/
def expire (s : State) : State := { s with ttWake := s.ttWake + s.ttRest, wakeFlag := true }

/-- timer_isr (R191), taken only while the timer is active and due. Where the variant may fault on a
late wake, a free draw decides; the draw is spent whichever way it falls. -/
def execTimerIsr (s : State) : Result :=
  whenRunning s
    (if s.ttActive && due s.clock s.ttWake then
      if mayFaultLate s then
        if Config.freeBit s.draws then
          .next (raiseFatal .lateWake (encode .timerIsr) { s with draws := s.draws + 1 })
        else .next (expire { s with draws := s.draws + 1 })
      else .next (expire s)
     else .next s)

/-- clock_tick (R192). -/
def execClockTick (s : State) : Result := whenRunning s (.next { s with clock := s.clock + 1 })

end Sys2Proof.Machine
end

