-- ==== Sys2Proof/Machine/LineController.lean ====
section
/-! DEFINITION. The Interrupt-Line Controller operations (40_line_controller.md): line_register,
line_set_trigger_mode, line_unregister, pin_change and line_isr, with the TachCount handler that runs
inside line_isr (41_tachometer.md rule R152). -/

namespace Sys2Proof.Machine

/-- line_register (R110): the LineHandle it returns and the state. -/
def lineRegister (owner : Oid) (h : Handler) (pin : Pin) (s : State) :
    Except FaultCode (Line × State) :=
  match lineOfPin s.config pin with
  | none => .error .unsupportedPin
  | some n => .ok (n, bindLine n (some owner) h s)

/-- The operation line_register as a step (R110). An `hsel` above 1 makes the frame illegal
(30_encoding.md R87). The handle goes back to the caller and is no state (assumption 10). -/
def execLineRegister (owner : Oid) (hsel : Byte) (pin : Pin) (s : State) : Result :=
  match handlerOf hsel with
  | none => illegalFrame (encode (.lineRegister owner hsel pin)) s
  | some h =>
    whenTask s (settle (encode (.lineRegister owner hsel pin)) s
      ((lineRegister owner h pin s).map Prod.snd))

/-- line_set_trigger_mode (R111): the line is checked before the mode, and both before any write. -/
def execLineSetTriggerMode (line mode : Byte) (s : State) : Result :=
  whenTask s (settle (encode (.lineSetTriggerMode line mode)) s
    (match lineOfHandle s.config line with
     | none => .error .invalidLine
     | some n =>
       match modeOf mode with
       | none => .error .invalidMode
       | some m => .ok (programLine n m s)))

/-- line_unregister (R112): mode 4, then the default owner and handler. -/
def execLineUnregister (line : Byte) (s : State) : Result :=
  whenTask s (settle (encode (.lineUnregister line)) s
    (match lineOfHandle s.config line with
     | none => .error .invalidLine
     | some n => .ok (bindLine n none .noop (programLine n none s))))

/-- A change of the level of pin p to v (R113). -/
def pinChanges (p : Pin) (v : Bool) (s : State) : State :=
  match lineOfPin s.config p with
  | none => s
  | some n =>
    if levelAt s p = v then s
    else if latches s.trig[n] (levelAt s p) v then setPf n true (putLevel p v s)
    else putLevel p v s

/-- pin_change (R113), a step of the pin environment. A `level` above 1 makes the frame illegal
(30_encoding.md R87). -/
def execPinChange (level : Byte) (pin : Pin) (s : State) : Result :=
  match levelOf level with
  | none => illegalFrame (encode (.pinChange level pin)) s
  | some v => whenRunning s (.next (pinChanges pin v s))

/-- tach_count, the TachCount handler (41_tachometer.md R152). An owner of none has no instance
(assumption 11). -/
def tachCount (owner : Option Oid) (s : State) : Except FaultCode State :=
  match owner with
  | none => .error .unknownOid
  | some oid =>
    match tachOf s oid with
    | none => .error .unknownOid
    | some t => .ok (putTach oid { t with pulseCount := t.pulseCount + 1 } s)

/-- The service routine of line n (R115): the flag is cleared on entry, then the registered handler
runs with the registered owner. -/
def serviceLine (n : Line) (s : State) : Except FaultCode State :=
  match s.handler[n] with
  | .noop => .ok (setPf n false s)
  | .tachCount => tachCount s.owner[n] (setPf n false s)

/-- line_isr (R115), taken only while the line requests (R114). -/
def execLineIsr (line : Byte) (s : State) : Result :=
  whenRunning s
    (match lineOfHandle s.config line with
     | none => settle (encode (.lineIsr line)) s (.error .invalidLine)
     | some n =>
       if requests s n then settle (encode (.lineIsr line)) s (serviceLine n s) else .next s)

end Sys2Proof.Machine
end

