-- ==== Sys2Proof/Machine/Tachometer.lean ====
section
/-! DEFINITION. The pulse-counter operations (41_tachometer.md): config_tachometer,
set_tach_irq_state, drain_task, drain_step and tach_response. -/

namespace Sys2Proof.Machine

/-- A new instance on line n (41_tachometer.md R150, 10_state.md R36 to R38). -/
def newTach (n : Line) : Tach :=
  { line := n, pulseCount := 0, enabled := false, activeMode := none }

/-- config_tachometer (R150): the duplicate, the pin and the capacity are checked in that order
(60_exceptions.md R224), then the instance is made and its line registered. -/
def execConfigTachometer (oid : Oid) (pin : Pin) (s : State) : Result :=
  whenTask s (settle (encode (.configTachometer oid pin)) s
    (match tachOf s oid with
     | some _ => .error .duplicateOid
     | none =>
       match lineOfPin s.config pin with
       | none => .error .unsupportedPin
       | some n =>
         if s.tach.length = s.config.maxTach then .error .capacityExceeded
         else (lineRegister oid .tachCount pin (putTach oid (newTach n) s)).map Prod.snd))

/-- line_set_trigger_mode as the Tachometer Driver calls it with an instance's line
(40_line_controller.md R111). -/
def armLine (n : Line) (m : Option Mode) (s : State) : Except FaultCode State :=
  if hasLine s.config n then .ok (programLine n m s) else .error .invalidLine

/-- The mode policy of set_tach_irq_state (R151): nothing for an unchanged mode or a redundant
disable. -/
def applyMode (oid : Oid) (t : Tach) (m : Option Mode) (s : State) : Except FaultCode State :=
  match m with
  | none =>
    if t.enabled then
      armLine t.line none (putTach oid { t with enabled := false, activeMode := none } s)
    else .ok s
  | some k =>
    if !t.enabled || t.activeMode != some k then
      armLine t.line (some k) (putTach oid { t with enabled := true, activeMode := some k } s)
    else .ok s

/-- set_tach_irq_state (R151): the lookup comes before the mode (60_exceptions.md R224). -/
def execSetTachIrqState (oid : Oid) (mode : Byte) (s : State) : Result :=
  whenTask s (settle (encode (.setTachIrqState oid mode)) s
    (match tachOf s oid with
     | none => .error .unknownOid
     | some t =>
       match modeOf mode with
       | none => .error .invalidMode
       | some m => applyMode oid t m s))

/-- The set of enabled instances, by rising oid (R153). -/
def enabledOids (s : State) : List Oid := (s.tach.filter (fun e => e.2.enabled)).map Prod.fst

/-- A drain's progress with `left` still to be read: none when nothing is (R153, R155). -/
def drainOf (left : List Oid) : Option (List Oid) := if left.isEmpty then none else some left

/-- drain_task (R153), taken only when the wake signal is up and no drain is in progress. -/
def execDrainTask (s : State) : Result :=
  whenTask s
    (if s.wakeFlag then
      .next { s with wakeFlag := false, drainLeft := drainOf (enabledOids s) }
     else .next s)

/-- drain_step (R155), taken only for an oid that is still to be read. The invariant gives such an oid
its instance; without one the step is not taken (assumption 12). -/
def execDrainStep (oid : Oid) (s : State) : Result :=
  whenRunning s
    (match s.drainLeft with
     | none => .next s
     | some left =>
       if left.contains oid then
         match tachOf s oid with
         | none => .next s
         | some t =>
           .next (emit (encode (.tachResponse oid t.pulseCount))
             { putTach oid { t with pulseCount := 0 } s with
               drainLeft := drainOf (left.filter (fun o => o != oid)) })
       else .next s)

/-- tach_response (R154): the report joins `OUT`. -/
def execTachResponse (oid : Oid) (pulseCount : Word) (s : State) : Result :=
  whenRunning s (.next (emit (encode (.tachResponse oid pulseCount)) s))

end Sys2Proof.Machine
end

