-- ==== Sys2Proof/Machine/Dispatch.lean ====
section
/-! DEFINITION. One arm per operation of 30_encoding.md rule R85. -/

namespace Sys2Proof.Machine

def exec (i : Instr) (s : State) : Host.Outcome State Fault Refusal :=
  match i with
  | .configTachometer oid pin => Sys2Proof.Machine.execConfigTachometer oid pin s
  | .updateTachTimer clock restTicks => Sys2Proof.Machine.execUpdateTachTimer clock restTicks s
  | .setTachIrqState oid mode => Sys2Proof.Machine.execSetTachIrqState oid mode s
  | .lineRegister owner hsel pin => Sys2Proof.Machine.execLineRegister owner hsel pin s
  | .lineSetTriggerMode line mode => Sys2Proof.Machine.execLineSetTriggerMode line mode s
  | .lineUnregister line => Sys2Proof.Machine.execLineUnregister line s
  | .pinChange level pin => Sys2Proof.Machine.execPinChange level pin s
  | .clockTick => Sys2Proof.Machine.execClockTick s
  | .lineIsr line => Sys2Proof.Machine.execLineIsr line s
  | .timerIsr => Sys2Proof.Machine.execTimerIsr s
  | .drainTask => Sys2Proof.Machine.execDrainTask s
  | .drainStep oid => Sys2Proof.Machine.execDrainStep oid s
  | .tachResponse oid pulseCount => Sys2Proof.Machine.execTachResponse oid pulseCount s

end Sys2Proof.Machine
end

