-- ==== Sys2Proof/Machine/Step.lean ====
section
/-! DEFINITION. One step of the block: the agent whose turn it is takes its step (00_scope.md rules R6
and R9, 20_memory.md rule R68). -/

namespace Sys2Proof.Machine

/-- The step of a frame that has been decoded: its operation, or the fatal error of an illegal frame
(30_encoding.md R87, R88). -/
def runFrame (d : Except DecodeReject Instr) (f : Frame) (s : State) : Result :=
  match d with
  | .ok i => exec i s
  | .error _ => illegalFrame f s

/-- The step of one turn. Host commands are executed in the order received, so only `runCommand` executes
one (20_memory.md R75); an agent's turn that carries one is not taken (assumption 19). -/
def takeTurn (t : Turn) (s : State) : Result :=
  match t with
  | .hostSends f => .next (hostSends f s)
  | .runCommand =>
    match takeCommand s with
    | none => .next s
    | some (f, s') => runFrame (decodeHost f) f s'
  | .agent f => if f.hostSpace then .next s else runFrame (decode f) f s
  | .hostTakes => .next (hostTakes s)
  | .reset clock high => .next (resetBlock clock high s)

/-- One step: the next turn of the schedule is spent and its agent steps. With nothing scheduled the
block idles (70_reset_and_hazards.md R261), or, halted by a fatal error, is stuck
(60_exceptions.md R222). -/
def step (s : State) : Host.Outcome State Fault Refusal :=
  match s.turns with
  | [] => if s.fault.isSome then .fault .halted else .next s
  | t :: rest => takeTurn t { s with turns := rest }

/-- The state whose very next step is the operation of the given table word. The block fetches nothing
(10_state.md R48); this stands for the environment's choice of that step (assumption 6): a host command
is the oldest frame received and the task context takes it up, and any other frame is an agent's
turn. -/
def State.withFetchWord (s : State) (nbits w : Nat) : State :=
  let f := tableFrame nbits w
  if f.hostSpace then { s with turns := .runCommand :: s.turns, inbox := f :: s.inbox }
  else { s with turns := .agent f :: s.turns }

end Sys2Proof.Machine
end

