-- ==== Sys2Proof/Safety.lean ====
section
/-! DEFINITION. The terms the statements use: when the block runs, the invariant of its state, runs of
operations, and the two tallies of 41_tachometer.md rule R156 and 42_tach_timer.md rule R194. -/

namespace Sys2Proof.Machine

/-- No fatal error has occurred (60_exceptions.md R222). -/
abbrev Running (s : State) : Prop := s.fault = none

/-- A task-context step other than the drain's can be taken (10_state.md R52, 60_exceptions.md R222). -/
abbrev TaskReady (s : State) : Prop := s.fault = none ∧ s.drainLeft = none

/-- The fatal error `c` raised by the operation with frame `f`, and nothing else written
(60_exceptions.md R220). -/
abbrev Fatal (c : FaultCode) (f : Frame) (s : State) : Result := .next { s with fault := some (c, f) }

/-- A per-line array is as it was at every line but n. -/
abbrev SameElsewhere {α : Type} (n : Line) (before after : PerLine α) : Prop :=
  ∀ k : Line, k ≠ n → after[k] = before[k]

/-- The mode operand of an armed mode (30_encoding.md R84). -/
def Mode.number : Mode → Byte
  | .levelLow => 0
  | .anyEdge => 1
  | .fallingEdge => 2
  | .risingEdge => 3

/-! ### The invariant -/

/-- The instance table is in its one form, within MAX_TACH (10_state.md R34), and each instance has a
line that exists (R35) and a mode exactly while it is enabled (R39). -/
abbrev TableWf (s : State) : Prop :=
  Rising s.tach ∧ s.tach.length ≤ s.config.maxTach ∧
  ∀ e ∈ s.tach, e.2.line.val < s.config.nLines ∧ e.2.enabled = e.2.activeMode.isSome

/-- Exactly the mapped pins have a level (10_state.md R31). -/
abbrev LevelWf (s : State) : Prop := s.level.map Prod.fst = s.config.pinmap.map Prod.fst

/-- An unowned line has the no-op handler (10_state.md R25, R26), and what belongs to no line reads 0
(10_state.md R30). -/
abbrev LinesWf (s : State) : Prop :=
  ∀ n : Line,
    (s.owner[n] = none → s.handler[n] = .noop) ∧
    (s.config.nLines ≤ n.val →
      s.trig[n] = 0#2 ∧ s.en[n] = false ∧ s.pf[n] = false ∧ s.owner[n] = none)

/-- A drain in progress has something left to read, in one form, and all of it is enabled instances
(10_state.md R52, 41_tachometer.md R153). -/
abbrev DrainWf (s : State) : Prop :=
  ∀ left ∈ s.drainLeft.toList,
    left ≠ [] ∧ left.Pairwise (· < ·) ∧
    ∀ oid ∈ left, (tachOf s oid).map Tach.enabled = some true

/-- Only tach_response frames are in `OUT` (10_state.md R45). -/
abbrev OutWf (s : State) : Prop := ∀ f ∈ s.out, decode f = .ok (.tachResponse f.f1 f.arg0)

/-- The invariant of the block's state, over parameters that meet 00_scope.md R5. -/
abbrev BlockInv (s : State) : Prop :=
  s.config.Wf ∧ TableWf s ∧ LevelWf s ∧ LinesWf s ∧ DrainWf s ∧ OutWf s

/-! ### Runs of operations -/

/-- The operations of a run, one after the other, in the order the schedule gives (20_memory.md R68). -/
def execAll : List Instr → State → Result
  | [], s => .next s
  | i :: rest, s =>
    match exec i s with
    | .next t => execAll rest t
    | .fault r => .fault r
    | .refused r => .refused r

/-- The operation calls tach_count for `oid` (41_tachometer.md R152, R156): it is the line_isr of a
requesting line whose handler is TachCount and whose owner is `oid`, a configured instance. -/
def countsPulse (i : Instr) (oid : Oid) (s : State) : Bool :=
  match i with
  | .lineIsr h =>
    match lineOfHandle s.config h with
    | none => false
    | some n =>
      s.fault.isNone && requests s n && s.handler[n] == .tachCount && s.owner[n] == some oid &&
        (tachOf s oid).isSome
  | _ => false

/-- How many tach_count calls for `oid` a run makes: H of 41_tachometer.md R156. -/
def pulseCalls (oid : Oid) : List Instr → State → Nat
  | [], _ => 0
  | i :: rest, s =>
    (if countsPulse i oid s then 1 else 0) +
      match exec i s with
      | .next t => pulseCalls oid rest t
      | _ => 0

/-- The sum of the counts that the frames report for `oid`, modulo 2^32. -/
def reportedSum (oid : Oid) : List Frame → Word
  | [] => 0
  | f :: rest => (if f.op = 0x81#8 ∧ f.f1 = oid then f.arg0 else 0) + reportedSum oid rest

/-- `TACH[oid].pulse_count`, 0 while the oid is not configured. -/
def pulseCountOf (s : State) (oid : Oid) : Word := ((tachOf s oid).map Tach.pulseCount).getD 0

/-- What 41_tachometer.md R156 balances against the handler invocations: the reports in `OUT` and the
current count. -/
def ledger (oid : Oid) (s : State) : Word := reportedSum oid s.out + pulseCountOf s oid

/-- The operation is an expiry of the timer that is taken and does not fault (42_tach_timer.md R191). -/
def expires (i : Instr) (s : State) : Bool :=
  i == .timerIsr && s.fault.isNone && s.ttActive && due s.clock s.ttWake &&
    !(mayFaultLate s && Config.freeBit s.draws)

/-- How many expiries a run has: k of 42_tach_timer.md R194. -/
def expiries : List Instr → State → Nat
  | [], _ => 0
  | i :: rest, s =>
    (if expires i s then 1 else 0) +
      match exec i s with
      | .next t => expiries rest t
      | _ => 0

/-- The operation is update_tach_timer (42_tach_timer.md R190). -/
def isUpdateTimer : Instr → Bool
  | .updateTachTimer _ _ => true
  | _ => false

/-- The operation is a report placed by hand, which no drain emits. -/
def isReport : Instr → Bool
  | .tachResponse _ _ => true
  | _ => false

end Sys2Proof.Machine
end

