-- ==== Sys2Proof/Certificates/Slice0/Obligations.lean ====
section
/-! DEFINITION. The statements about the block. A frame is written as "the next state is the old one
but for these fields". -/

open Sys2Proof Sys2Proof.Machine

/-! ### Encoding (30_encoding.md) -/

/-- Decoding the frame of a well-formed operation gives that operation back, whatever its operands
(R81, R85, R86). -/
def Obligations.DecodeOfEncodeIsTheInstruction : Prop :=
  ∀ i : Instr, i.wellFormed = true → decode (encode i) = .ok i

/-- A frame that decodes is the frame of what it decodes to, so no bit of a legal frame is dropped and
no two frames mean the same operation (R81, R86, R87). -/
def Obligations.EncodeOfDecodeIsTheFrame : Prop :=
  ∀ (f : Frame) (i : Instr), decode f = .ok i → encode i = f ∧ i.wellFormed = true

/-- The legal frames are those whose opcode R85 lists and whose reserved bits R86 are 0, with `hsel`
and `level` at most 1 (R87). -/
def Obligations.LegalFramesAreTheTables : Prop :=
  ∀ f : Frame, (∃ i, decode f = .ok i) ↔
    ((f.op = 0x01 ∨ f.op = 0x81) ∧ f.f2 = 0 ∧ f.rsv = 0 ∧ f.arg1 = 0) ∨
    (f.op = 0x02 ∧ f.f1 = 0 ∧ f.f2 = 0 ∧ f.rsv = 0) ∨
    ((f.op = 0x03 ∨ f.op = 0x11) ∧ f.rsv = 0 ∧ f.arg0 = 0 ∧ f.arg1 = 0) ∨
    (f.op = 0x10 ∧ f.f2.toNat ≤ 1 ∧ f.rsv = 0 ∧ f.arg1 = 0) ∨
    ((f.op = 0x12 ∨ f.op = 0x22 ∨ f.op = 0x25) ∧ f.f2 = 0 ∧ f.rsv = 0 ∧ f.arg0 = 0 ∧ f.arg1 = 0) ∨
    (f.op = 0x20 ∧ f.f1 = 0 ∧ f.f2.toNat ≤ 1 ∧ f.rsv = 0 ∧ f.arg1 = 0) ∨
    ((f.op = 0x21 ∨ f.op = 0x23 ∨ f.op = 0x24) ∧
      f.f1 = 0 ∧ f.f2 = 0 ∧ f.rsv = 0 ∧ f.arg0 = 0 ∧ f.arg1 = 0)

/-- Executing an illegal frame raises InvalidCommand, with that frame, and nothing else (R87; 60_exceptions.md
R224). -/
def Obligations.IllegalFramesAreFatal : Prop :=
  ∀ (s : State) (f : Frame) (r : DecodeReject), Running s → decode f = .error r →
    runFrame (decode f) f s = Fatal .invalidCommand f s

/-- Some frames of the spec's own table (95_test_vectors.md E1, E2, E4, E5, E8, E9, E12) decode as
it says. -/
def Obligations.SampleFramesDecode : Prop :=
  decode 0x000000000000001A00000301#96 = .ok (.configTachometer 3 26) ∧
  decode 0x000001F4000003E800000002#96 = .ok (.updateTachTimer 1000 500) ∧
  decode 0x000000001234567800000381#96 = .ok (.tachResponse 3 0x12345678) ∧
  decode 0x000000000000001A00010310#96 = .ok (.lineRegister 3 1 26) ∧
  decode 0x000000000000001A00010020#96 = .ok (.pinChange 1 26) ∧
  decode 0x000000000000000000000122#96 = .ok (.lineIsr 1) ∧
  decode 0x000000000000000000000004#96 = .error .reservedOpcode

/-- A frame is its bytes 0 to 11: byte k is `f[8k+7:8k]`, byte 0 is OP, 1 is F1, 2 is F2, 3 is RSV,
4 to 7 are ARG0 and 8 to 11 are ARG1, least significant byte first (R82), with the rule's example. -/
def Obligations.FrameBytesAreLittleEndian : Prop :=
  (∀ (f : Frame) (rest : List Byte), frameOfBytes (f.toBytes ++ rest) = some (f, rest)) ∧
  (∀ (f : Frame) (k : Nat), k < 12 → f.toBytes[k]? = some (f.extractLsb' (8 * k) 8)) ∧
  (∀ f : Frame,
    f.byte 0 = f.op ∧ f.byte 1 = f.f1 ∧ f.byte 2 = f.f2 ∧ f.byte 3 = f.rsv ∧
    f.byte 7 ++ f.byte 6 ++ f.byte 5 ++ f.byte 4 = f.arg0 ∧
    f.byte 11 ++ f.byte 10 ++ f.byte 9 ++ f.byte 8 = f.arg1) ∧
  Frame.toBytes (encode (.configTachometer 3 26)) =
    [0x01, 0x03, 0x00, 0x00, 0x1A, 0x00, 0x00, 0x00, 0x00, 0x00, 0x00, 0x00] ∧
  encode (.configTachometer 3 26) = 0x000000000000001A00000301#96

/-- From the host, a frame with OP 0x01, 0x02 or 0x03 is taken as any frame is, and a frame with any
other OP, legal or not, raises InvalidCommand (R88). -/
def Obligations.HostChannelAcceptsHostSpaceOnly : Prop :=
  ∀ (s : State) (f : Frame), Running s →
    (f.op = 0x01 ∨ f.op = 0x02 ∨ f.op = 0x03 →
      runFrame (decodeHost f) f s = runFrame (decode f) f s) ∧
    (f.op ≠ 0x01 → f.op ≠ 0x02 → f.op ≠ 0x03 →
      runFrame (decodeHost f) f s = Fatal .invalidCommand f s)

/-! ### Steps, the schedule and the host channel -/

/-- A step runs the decoded operation, in the state whose next turn has been spent: the frame of an
agent's turn, or the oldest frame the host has sent, when the task context takes up a command. For any
frame, legal or not, it is what `runFrame` makes of what the decoder, or the host channel's, answers. A
frame of the host-command space is executed from the host channel only (20_memory.md R75). The schedule
and the queue of sent frames are the model's own (assumption 6), and so are which frames an agent's turn
may carry and that one with a host command leaves the state as it was (assumptions 18 and 19). -/
def Obligations.StepRunsTheDecodedInstruction : Prop :=
  (∀ (s : State) (f : Frame) (rest : List Turn), s.turns = .agent f :: rest → f.hostSpace = false →
    step s = runFrame (decode f) f { s with turns := rest }) ∧
  (∀ (s : State) (f : Frame) (rest : List Turn), s.turns = .agent f :: rest → f.hostSpace = true →
    step s = .next { s with turns := rest }) ∧
  (∀ (s : State) (f : Frame) (queue : List Frame) (rest : List Turn),
    TaskReady s → s.turns = .runCommand :: rest → s.inbox = f :: queue →
    step s = runFrame (decodeHost f) f { s with turns := rest, inbox := queue }) ∧
  (∀ (s : State) (f : Frame) (rest : List Turn) (i : Instr),
    s.turns = .agent f :: rest → f.hostSpace = false → decode f = .ok i →
    step s = exec i { s with turns := rest }) ∧
  (∀ (s : State) (f : Frame) (queue : List Frame) (rest : List Turn) (i : Instr),
    TaskReady s → s.turns = .runCommand :: rest → s.inbox = f :: queue → f.hostSpace = true →
    decode f = .ok i → step s = exec i { s with turns := rest, inbox := queue })

/-- The host channel keeps order: a frame sent joins the end of the queue, the host takes the oldest
report, and whatever step is taken the queue of sent frames stays, gains one frame at its end, loses its
oldest to the task context's turn, or is emptied by a reset (10_state.md R45, 20_memory.md R75). The
queue and the schedule are the model's own (assumption 6), and so is that a reset empties the queue
(assumption 9). -/
def Obligations.HostChannelKeepsOrder : Prop :=
  (∀ (s : State) (f : Frame) (rest : List Turn), Running s → s.turns = .hostSends f :: rest →
    step s = .next { s with turns := rest, inbox := s.inbox ++ [f] }) ∧
  (∀ (s : State) (f : Frame) (others : List Frame) (rest : List Turn),
    Running s → s.turns = .hostTakes :: rest → s.out = f :: others →
    step s = .next { s with turns := rest, out := others }) ∧
  (∀ s t : State, step s = .next t →
    t.inbox = s.inbox ∨
    (∃ f rest, s.turns = .hostSends f :: rest ∧ t.inbox = s.inbox ++ [f]) ∨
    (∃ f rest, s.turns = .runCommand :: rest ∧ s.inbox = f :: t.inbox) ∨
    (∃ clock high rest, s.turns = .reset clock high :: rest ∧ t.inbox = []))

/-- A halted block takes no step: whatever operation or turn comes, the state stays as it is, until a
reset clears `FAULT` (60_exceptions.md R222). That a step not taken is answered by the unchanged
state, its turn spent, is the model's choice (assumption 8). -/
def Obligations.HaltedBlockTakesNoStep : Prop :=
  ∀ (s : State) (x : FaultCode × Frame), s.fault = some x →
    (∀ i : Instr, exec i s = .next s) ∧
    (∀ (turn : Turn) (rest : List Turn), s.turns = turn :: rest →
      (∀ clock high, turn ≠ .reset clock high) → step s = .next { s with turns := rest }) ∧
    (∀ (clock : Word) (high : List Pin) (rest : List Turn), s.turns = .reset clock high :: rest →
      ∃ t, step s = .next t ∧ t.fault = none)

/-- A step stops only when the block is halted and no turn is left, so that no reset can come; it is
never refused, and every operation answers a next state from every state. The model's choices are the
fault that stands for the stuck state (assumption 14), the next state of an operation that is not
enabled or comes while the block is halted or draining (assumption 8), and that of a step with no turn
left (assumption 6). -/
def Obligations.StepStopsOnlyWhenHaltedForGood : Prop :=
  (∀ (s : State) (r : Fault), step s = .fault r ↔ r = .halted ∧ s.turns = [] ∧ s.fault ≠ none) ∧
  (∀ (s : State) (r : Refusal), step s ≠ .refused r) ∧
  (∀ (i : Instr) (s : State), ∃ t, exec i s = .next t)

/-- The operations of the interrupt and task contexts are not taken while they are not enabled
(40_line_controller.md R115, 41_tachometer.md R153 and R155, 42_tach_timer.md R191). That a step not
taken is answered by the unchanged state is the model's choice (assumption 8). -/
def Obligations.StepsNotEnabledChangeNothing : Prop :=
  ∀ s : State, Running s →
    (∀ (h : Byte) (n : Line), n.val = h.toNat → n.val < s.config.nLines → requests s n = false →
      exec (.lineIsr h) s = .next s) ∧
    (s.ttActive = false ∨ due s.clock s.ttWake = false → exec .timerIsr s = .next s) ∧
    (s.wakeFlag = false ∨ s.drainLeft ≠ none → exec .drainTask s = .next s) ∧
    (∀ oid : Oid, (∀ left, s.drainLeft = some left → oid ∉ left) → exec (.drainStep oid) s = .next s)

/-- While a drain is in progress no other task-context operation is taken (10_state.md R52,
20_memory.md R75), and a command that the host has sent stays in the inbox: the task context's turn
leaves everything but itself as it was. That an operation not taken is answered by the unchanged state,
and that the turn is spent, is the model's choice (assumptions 6 and 8). -/
def Obligations.DrainExcludesOtherTaskSteps : Prop :=
  ∀ (s : State) (left : List Oid), s.drainLeft = some left →
    (∀ oid pin, exec (.configTachometer oid pin) s = .next s) ∧
    (∀ clock rest, exec (.updateTachTimer clock rest) s = .next s) ∧
    (∀ oid mode, exec (.setTachIrqState oid mode) s = .next s) ∧
    (∀ owner (hsel : Byte) pin, hsel.toNat ≤ 1 → exec (.lineRegister owner hsel pin) s = .next s) ∧
    (∀ line mode, exec (.lineSetTriggerMode line mode) s = .next s) ∧
    (∀ line, exec (.lineUnregister line) s = .next s) ∧
    exec .drainTask s = .next s ∧
    (∀ rest, s.turns = .runCommand :: rest → step s = .next { s with turns := rest })

/-! ### Reset (10_state.md R51, 70_reset_and_hazards.md) -/

/-- The state after reset, for every variant and every draw of the clock and the pin levels, field by
field (10_state.md R51). -/
def Obligations.ResetValues : Prop :=
  ∀ (c : Config) (clock : Word) (high : List Pin),
    let s := State.resetWith c clock high
    (∀ n : Line, s.trig[n] = 0b00 ∧ s.en[n] = false ∧ s.pf[n] = false ∧ s.owner[n] = none ∧
      s.handler[n] = .noop) ∧
    eicr s = 0x0000 ∧ eimsk s = 0x00 ∧ eifr s = 0x00 ∧
    (∀ p : Pin, lineOfPin c p ≠ none → levelAt s p = high.contains p) ∧
    (∀ oid : Oid, tachOf s oid = none) ∧
    s.ttActive = false ∧ s.ttWake = 0 ∧ s.ttRest = 0 ∧ s.wakeFlag = false ∧ s.drainLeft = none ∧
    s.clock = clock ∧ s.out = [] ∧ s.fault = none

/-- A reset, from any state and even a halted one, gives the state after reset of the same variant
(70_reset_and_hazards.md R260). That the schedule and the count of draws go on, and that frames sent
before the reset are gone, is the model's choice (assumption 9). -/
def Obligations.ResetRestartsTheBlock : Prop :=
  ∀ (s : State) (clock : Word) (high : List Pin) (rest : List Turn),
    s.turns = .reset clock high :: rest →
    step s = .next { State.resetWith s.config clock high with turns := rest, draws := s.draws }

/-- After reset nothing is enabled: no line requests, the timer is inactive, and no service routine,
drain or drain step is taken (70_reset_and_hazards.md R261; assumption 8 for the answer of a step not
taken). -/
def Obligations.NothingIsPendingAfterReset : Prop :=
  ∀ (c : Config) (clock : Word) (high : List Pin),
    let s := State.resetWith c clock high
    (∀ n : Line, requests s n = false) ∧ s.ttActive = false ∧
    (∀ (h : Byte) (n : Line), n.val = h.toNat → n.val < c.nLines → exec (.lineIsr h) s = .next s) ∧
    exec .timerIsr s = .next s ∧ exec .drainTask s = .next s ∧
    ∀ oid, exec (.drainStep oid) s = .next s

/-- The state after reset meets the invariant; its variant, clock and pin levels are the model's choice
(assumptions 7 and 20). -/
def Obligations.ResetStateMeetsTheInvariant : Prop := BlockInv State.reset

/-- So does the state after reset of every variant that meets rule R5, for every free draw. -/
def Obligations.EveryResetMeetsTheInvariant : Prop :=
  ∀ (c : Config) (clock : Word) (high : List Pin), c.Wf → BlockInv (State.resetWith c clock high)

/-! ### The invariant -/

/-- Every step keeps the invariant: the instance table, the pin levels and the drain stay in their one
form, every instance is on a line that exists and has a mode exactly while it is enabled (10_state.md
R39), an unowned line has the no-op handler, what belongs to no line reads 0 (R30), a drain has only
enabled instances to read (41_tachometer.md R153), and only reports are in `OUT` (R45). -/
def Obligations.EveryStepKeepsTheInvariant : Prop :=
  ∀ s t : State, BlockInv s → step s = .next t → BlockInv t

/-! ### Fatal errors (60_exceptions.md) -/

/-- Fatal errors are precise: an operation that raises one records its code and the operation's own
frame in `FAULT` and writes nothing else (R220); the count of draws is the model's own. That this holds
of a line_isr whose TachCount owner has no instance, so that the pending flag is kept, is read from R220
against the order of 40_line_controller.md R115's pseudocode (assumption 13). -/
def Obligations.FatalErrorsArePrecise : Prop :=
  ∀ (i : Instr) (s t : State) (c : FaultCode) (f : Frame),
    Running s → exec i s = .next t → t.fault = some (c, f) →
    f = encode i ∧ t = { s with fault := some (c, f), draws := t.draws }

/-- The check order of the host commands (R224). -/
def Obligations.CommandsCheckInOrder : Prop :=
  ∀ s : State, TaskReady s →
    (∀ (oid : Oid) (pin : Pin), tachOf s oid ≠ none →
      exec (.configTachometer oid pin) s =
        Fatal .duplicateOid (encode (.configTachometer oid pin)) s) ∧
    (∀ (oid : Oid) (pin : Pin), tachOf s oid = none → lineOfPin s.config pin = none →
      exec (.configTachometer oid pin) s =
        Fatal .unsupportedPin (encode (.configTachometer oid pin)) s) ∧
    (∀ (oid : Oid) (pin : Pin), tachOf s oid = none → lineOfPin s.config pin ≠ none →
      s.tach.length = s.config.maxTach →
      exec (.configTachometer oid pin) s =
        Fatal .capacityExceeded (encode (.configTachometer oid pin)) s) ∧
    (∀ (oid : Oid) (mode : Byte), tachOf s oid = none →
      exec (.setTachIrqState oid mode) s =
        Fatal .unknownOid (encode (.setTachIrqState oid mode)) s) ∧
    (∀ (oid : Oid) (mode : Byte), tachOf s oid ≠ none → 4 < mode.toNat →
      exec (.setTachIrqState oid mode) s =
        Fatal .invalidMode (encode (.setTachIrqState oid mode)) s)

/-- The check order of the controller's operations (R224; 40_line_controller.md R110 to R112). -/
def Obligations.ControllerOperationsCheckInOrder : Prop :=
  ∀ s : State, TaskReady s →
    (∀ (owner : Oid) (hsel : Byte) (pin : Pin), hsel.toNat ≤ 1 → lineOfPin s.config pin = none →
      exec (.lineRegister owner hsel pin) s =
        Fatal .unsupportedPin (encode (.lineRegister owner hsel pin)) s) ∧
    (∀ line mode : Byte, s.config.nLines ≤ line.toNat →
      exec (.lineSetTriggerMode line mode) s =
        Fatal .invalidLine (encode (.lineSetTriggerMode line mode)) s) ∧
    (∀ line mode : Byte, line.toNat < s.config.nLines → s.config.nLines ≤ 8 → 4 < mode.toNat →
      exec (.lineSetTriggerMode line mode) s =
        Fatal .invalidMode (encode (.lineSetTriggerMode line mode)) s) ∧
    (∀ line : Byte, s.config.nLines ≤ line.toNat →
      exec (.lineUnregister line) s = Fatal .invalidLine (encode (.lineUnregister line)) s)

/-- Where a service routine faults: a line that does not exist, and a TachCount handler whose owner has
no instance (R224; 40_line_controller.md R115, 41_tachometer.md R152). That the pending flag is kept
in the second case is read from R220 (assumption 13). -/
def Obligations.ServiceRoutineFaults : Prop :=
  ∀ s : State, Running s →
    (∀ line : Byte, s.config.nLines ≤ line.toNat →
      exec (.lineIsr line) s = Fatal .invalidLine (encode (.lineIsr line)) s) ∧
    (∀ (line : Byte) (n : Line) (oid : Oid), n.val = line.toNat → n.val < s.config.nLines →
      requests s n = true → s.handler[n] = .tachCount → s.owner[n] = some oid →
      tachOf s oid = none →
      exec (.lineIsr line) s = Fatal .unknownOid (encode (.lineIsr line)) s)

/-! ### The Interrupt-Line Controller (40_line_controller.md) -/

/-- line_register binds owner and handler to the pin's line together, returns that line as the handle,
and touches nothing else; a pin with no line is fatal; the frame has OP 0x10, the owner in F1, hsel in
F2 and the pin in ARG0 (R110). -/
def Obligations.LineRegisterBindsTheLine : Prop :=
  ∀ (s : State) (owner : Oid) (hsel : Byte) (pin : Pin), TaskReady s → hsel.toNat ≤ 1 →
    (let f := encode (.lineRegister owner hsel pin)
     f.op = 0x10 ∧ f.f1 = owner ∧ f.f2 = hsel ∧ f.arg0 = pin) ∧
    (∀ n : Line, lineOfPin s.config pin = some n →
      ∃ t h, exec (.lineRegister owner hsel pin) s = .next t ∧
        lineRegister owner h pin s = .ok (n, t) ∧
        h = (if hsel = 0 then .noop else .tachCount) ∧
        t.owner[n] = some owner ∧ t.handler[n] = h ∧
        SameElsewhere n s.owner t.owner ∧ SameElsewhere n s.handler t.handler ∧
        t = { s with owner := t.owner, handler := t.handler }) ∧
    (lineOfPin s.config pin = none →
      exec (.lineRegister owner hsel pin) s =
        Fatal .unsupportedPin (encode (.lineRegister owner hsel pin)) s)

/-- Distinct pins have distinct lines, and `pin_of` is the inverse of the pin map (10_state.md R32,
R33). -/
def Obligations.PinMapIsInjective : Prop :=
  ∀ c : Config, c.Wf →
    (∀ (p q : Pin) (n : Line), lineOfPin c p = some n → lineOfPin c q = some n → p = q) ∧
    (∀ (p : Pin) (n : Line), pinOf c n = some p ↔ lineOfPin c p = some n)

/-- line_set_trigger_mode with mode 0 to 3 leaves the line enabled, in that mode and with its flag
clear, whatever they were, and writes no other line and no other state (R111). -/
def Obligations.LineSetTriggerModeArms : Prop :=
  ∀ (s : State) (line mode : Byte) (n : Line), TaskReady s → n.val = line.toNat →
    n.val < s.config.nLines → mode.toNat ≤ 3 →
    ∃ t, exec (.lineSetTriggerMode line mode) s = .next t ∧
      t.trig[n] = mode.extractLsb' 0 2 ∧ t.en[n] = true ∧ t.pf[n] = false ∧
      SameElsewhere n s.trig t.trig ∧ SameElsewhere n s.en t.en ∧ SameElsewhere n s.pf t.pf ∧
      t = { s with trig := t.trig, en := t.en, pf := t.pf, draws := t.draws }

/-- line_set_trigger_mode with mode 4 leaves the line disabled with its bits clear; the flag is as it
was, or set where set trigger bits were cleared (R111, R116). -/
def Obligations.LineSetTriggerModeDisables : Prop :=
  ∀ (s : State) (line : Byte) (n : Line), TaskReady s → n.val = line.toNat →
    n.val < s.config.nLines →
    ∃ t, exec (.lineSetTriggerMode line 4) s = .next t ∧
      t.trig[n] = 0b00 ∧ t.en[n] = false ∧
      (t.pf[n] = s.pf[n] ∨ (s.trig[n] ≠ 0b00 ∧ t.pf[n] = true)) ∧
      SameElsewhere n s.trig t.trig ∧ SameElsewhere n s.en t.en ∧ SameElsewhere n s.pf t.pf ∧
      t = { s with trig := t.trig, en := t.en, pf := t.pf, draws := t.draws }

/-- A flag that the change of the trigger bits may have set never makes an edge-mode line request:
right after it is armed in mode 1, 2 or 3 the line does not request (R116). -/
def Obligations.ArmingLeavesNoEdgeRequest : Prop :=
  ∀ (s t : State) (line mode : Byte) (n : Line), TaskReady s → n.val = line.toNat →
    n.val < s.config.nLines → 1 ≤ mode.toNat → mode.toNat ≤ 3 →
    exec (.lineSetTriggerMode line mode) s = .next t → requests t n = false

/-- The field-level sequence and the register-level sequence of R111 do the same, draws included, for
every line, every mode and every variant that meets Config.Wf, which leaves out variants in which two
fields of EICR share a bit (assumption 2). -/
def Obligations.TriggerSequenceMatchesRegisters : Prop :=
  ∀ (s : State) (n : Line) (m : Option Mode), s.config.Wf → n.val < s.config.nLines →
    programLineByRegisters n m s = .ok (programLine n m s)

/-- line_unregister disables the line, clears its bits and gives it the default owner and handler
(R112); the flag is as in R111 with mode 4. -/
def Obligations.LineUnregisterReleasesTheLine : Prop :=
  ∀ (s : State) (line : Byte) (n : Line), TaskReady s → n.val = line.toNat →
    n.val < s.config.nLines →
    ∃ t, exec (.lineUnregister line) s = .next t ∧
      t.trig[n] = 0b00 ∧ t.en[n] = false ∧ t.owner[n] = none ∧ t.handler[n] = .noop ∧
      (t.pf[n] = s.pf[n] ∨ (s.trig[n] ≠ 0b00 ∧ t.pf[n] = true)) ∧
      SameElsewhere n s.trig t.trig ∧ SameElsewhere n s.en t.en ∧ SameElsewhere n s.pf t.pf ∧
      SameElsewhere n s.owner t.owner ∧ SameElsewhere n s.handler t.handler ∧
      t = { s with trig := t.trig, en := t.en, pf := t.pf, owner := t.owner,
                   handler := t.handler, draws := t.draws }

/-- pin_change: a pin with no line has no effect; on a mapped pin the level is recorded and the line's
flag is set exactly by the edges of its mode, whatever its enable and owner; an unchanged level
changes nothing; the frame has OP 0x20, the level in F2 and the pin in ARG0 (R113). -/
def Obligations.PinChangeLatchesItsEdges : Prop :=
  ∀ (s : State) (pin : Pin) (v : Bool), Running s →
    let level : Byte := if v then 1 else 0
    (let f := encode (.pinChange level pin)
     f.op = 0x20 ∧ f.f2 = level ∧ f.arg0 = pin) ∧
    (lineOfPin s.config pin = none → exec (.pinChange level pin) s = .next s) ∧
    (∀ n : Line, lineOfPin s.config pin = some n →
      ∃ t, exec (.pinChange level pin) s = .next t ∧
        (levelAt s pin = v → t = s) ∧
        levelAt t pin = v ∧ (∀ q, q ≠ pin → levelAt t q = levelAt s q) ∧
        (s.trig[n] = 0b00 → t.pf[n] = s.pf[n]) ∧
        (s.trig[n] = 0b01 → t.pf[n] = (s.pf[n] || levelAt s pin != v)) ∧
        (s.trig[n] = 0b10 → t.pf[n] = (s.pf[n] || (levelAt s pin && !v))) ∧
        (s.trig[n] = 0b11 → t.pf[n] = (s.pf[n] || (!levelAt s pin && v))) ∧
        SameElsewhere n s.pf t.pf ∧
        t = { s with level := t.level, pf := t.pf })

/-- A line requests an interrupt exactly when it is enabled and either its mode is level-low and its
pin is low, or its mode is an edge mode and its flag is set (R114). -/
def Obligations.RequestCondition : Prop :=
  ∀ (s : State) (n : Line), requests s n = true ↔
    s.en[n] = true ∧
      ((s.trig[n] = 0b00 ∧ ∃ p, pinOf s.config n = some p ∧ levelAt s p = false) ∨
       (s.trig[n] ≠ 0b00 ∧ s.pf[n] = true))

/-- line_isr of a requesting line with the no-op handler clears the line's flag and does nothing else
(R115, R117). -/
def Obligations.LineIsrWithoutOwnerClearsTheFlag : Prop :=
  ∀ (s : State) (line : Byte) (n : Line), Running s → n.val = line.toNat →
    n.val < s.config.nLines → requests s n = true → s.handler[n] = .noop →
    ∃ t, exec (.lineIsr line) s = .next t ∧ t.pf[n] = false ∧ SameElsewhere n s.pf t.pf ∧
      t = { s with pf := t.pf }

/-- line_isr of a requesting line with the TachCount handler clears the line's flag and adds one,
modulo 2^32, to the count of the owner's instance, enabled or not, and does nothing else (R115;
41_tachometer.md R152). -/
def Obligations.LineIsrCountsForTheOwner : Prop :=
  ∀ (s : State) (line : Byte) (n : Line) (oid : Oid) (a : Tach), Running s → n.val = line.toNat →
    n.val < s.config.nLines → requests s n = true → s.handler[n] = .tachCount →
    s.owner[n] = some oid → tachOf s oid = some a →
    ∃ t, exec (.lineIsr line) s = .next t ∧
      tachOf t oid = some { a with pulseCount := a.pulseCount + 1 } ∧
      (∀ o, o ≠ oid → tachOf t o = tachOf s o) ∧
      t.pf[n] = false ∧ SameElsewhere n s.pf t.pf ∧
      t = { s with tach := t.tach, pf := t.pf }

/-- Service routines of different sources give the same state in either order, so that not nesting
them loses no outcome: two different lines, whatever their owners, and a line and the timer
(60_exceptions.md R230). -/
def Obligations.ServiceRoutinesCommute : Prop :=
  (∀ (s u t u' t' : State) (a b : Byte), a ≠ b →
    exec (.lineIsr a) s = .next u → exec (.lineIsr b) u = .next t →
    exec (.lineIsr b) s = .next u' → exec (.lineIsr a) u' = .next t' →
    t.fault = none → t = t') ∧
  (∀ (s u t u' t' : State) (a : Byte),
    exec (.lineIsr a) s = .next u → exec .timerIsr u = .next t →
    exec .timerIsr s = .next u' → exec (.lineIsr a) u' = .next t' →
    t.fault = none → t = t')

/-! ### The register space (10_state.md R27 to R30, 20_memory.md) -/

/-- EICR: bit MODE_BIT0(n) and bit MODE_BIT1(n) hold the line's field, at bits 2n and 2n+1 by default; a
read gives the fields, a write replaces them, and reset leaves 0 (10_state.md R27). A write may set
the flag of a line whose field it changes, of no other (20_memory.md R65). -/
def Obligations.EicrHoldsTheTriggerFields : Prop :=
  (∀ n : Line, defaultModeBit0[n].val = 2 * n.val ∧ defaultModeBit1[n].val = 2 * n.val + 1) ∧
  (∀ (s : State) (n : Line), s.config.Wf → n.val < s.config.nLines →
    regRead 0 2 s = .ok (eicr s) ∧
    (eicr s).getLsbD s.config.modeBit0[n].val = s.trig[n].getLsbD 0 ∧
    (eicr s).getLsbD s.config.modeBit1[n].val = s.trig[n].getLsbD 1) ∧
  (∀ (s : State) (v : BitVec 16), s.config.Wf →
    ∃ t, regWrite 0 2 v s = .ok t ∧
      (∀ n : Line, n.val < s.config.nLines →
        t.trig[n].getLsbD 0 = v.getLsbD s.config.modeBit0[n].val ∧
        t.trig[n].getLsbD 1 = v.getLsbD s.config.modeBit1[n].val) ∧
      (∀ n : Line, s.config.nLines ≤ n.val → t.trig[n] = s.trig[n]) ∧
      (∀ n : Line, t.trig[n] = s.trig[n] → t.pf[n] = s.pf[n]) ∧
      (∀ n : Line, s.pf[n] = true → t.pf[n] = true) ∧
      t = { s with trig := t.trig, pf := t.pf, draws := t.draws }) ∧
  (∀ (c : Config) (clock : Word) (high : List Pin), eicr (State.resetWith c clock high) = 0x0000)

/-- EIMSK: bit n holds the line's enable; a write replaces the enables and has no other effect, and
reset leaves 0 (10_state.md R28, 20_memory.md R65). -/
def Obligations.EimskHoldsTheEnables : Prop :=
  (∀ (s : State) (n : Line), n.val < s.config.nLines →
    regRead 2 1 s = .ok ((eimsk s).setWidth 16) ∧ (eimsk s).getLsbD n.val = s.en[n]) ∧
  (∀ (s : State) (v : BitVec 16), ∃ t, regWrite 2 1 v s = .ok t ∧
    (∀ n : Line, n.val < s.config.nLines → t.en[n] = v.getLsbD n.val) ∧
    (∀ n : Line, s.config.nLines ≤ n.val → t.en[n] = s.en[n]) ∧
    t = { s with en := t.en }) ∧
  (∀ (c : Config) (clock : Word) (high : List Pin), eimsk (State.resetWith c clock high) = 0x00)

/-- EIFR: a read gives the flags; a write clears the flags whose bits are 1 and leaves the others, so
software cannot set one; reset leaves 0 (10_state.md R29). -/
def Obligations.EifrIsWriteOneToClear : Prop :=
  (∀ (s : State) (n : Line), n.val < s.config.nLines →
    regRead 3 1 s = .ok ((eifr s).setWidth 16) ∧ (eifr s).getLsbD n.val = s.pf[n]) ∧
  (∀ (s : State) (v : BitVec 16), ∃ t, regWrite 3 1 v s = .ok t ∧
    (∀ n : Line, n.val < s.config.nLines → t.pf[n] = (s.pf[n] && !v.getLsbD n.val)) ∧
    (∀ n : Line, s.config.nLines ≤ n.val → t.pf[n] = s.pf[n]) ∧
    t = { s with pf := t.pf }) ∧
  (∀ (c : Config) (clock : Word) (high : List Pin), eifr (State.resetWith c clock high) = 0x00)

/-- The bits that belong to no line read 0, and what is written to them is ignored (10_state.md
R30). -/
def Obligations.ReservedRegisterBits : Prop :=
  (∀ (s : State) (b : Fin 16), b ∉ s.config.modeBits → (eicr s).getLsbD b.val = false) ∧
  (∀ (s : State) (b : Nat), s.config.nLines ≤ b →
    (eimsk s).getLsbD b = false ∧ (eifr s).getLsbD b = false) ∧
  (∀ (s : State) (v v' : BitVec 16),
    (∀ b ∈ s.config.modeBits, v.getLsbD b.val = v'.getLsbD b.val) →
    regWrite 0 2 v s = regWrite 0 2 v' s) ∧
  (∀ (s : State) (v v' : BitVec 16),
    (∀ b : Nat, b < s.config.nLines → v.getLsbD b = v'.getLsbD b) →
    regWrite 2 1 v s = regWrite 2 1 v' s ∧ regWrite 3 1 v s = regWrite 3 1 v' s)

/-- A one-byte access of EICR reads or writes that half of it, little-endian, and the other half of a
write is as it reads (20_memory.md R61, R62). -/
def Obligations.EicrHalves : Prop :=
  ∀ (s : State) (v : BitVec 16),
    regRead 0 1 s = .ok (((eicr s).extractLsb' 0 8).setWidth 16) ∧
    regRead 1 1 s = .ok (((eicr s).extractLsb' 8 8).setWidth 16) ∧
    regWrite 0 1 v s = regWrite 0 2 ((eicr s).extractLsb' 8 8 ++ v.extractLsb' 0 8) s ∧
    regWrite 1 1 v s = regWrite 0 2 (v.extractLsb' 0 8 ++ (eicr s).extractLsb' 0 8) s

/-- A register access has a meaning exactly when it is 1 byte at an offset 0x00 to 0x03 or 2 bytes at
0x00; any other is refused, and no operation is refused (20_memory.md R63). -/
def Obligations.OtherRegisterAccessesAreRefused : Prop :=
  ∀ (s : State) (offset width : Nat) (v : BitVec 16),
    ((width = 1 ∧ offset ≤ 3) ∨ (width = 2 ∧ offset = 0) →
      (∃ r, regRead offset width s = .ok r) ∧ ∃ t, regWrite offset width v s = .ok t) ∧
    (¬ ((width = 1 ∧ offset ≤ 3) ∨ (width = 2 ∧ offset = 0)) →
      regRead offset width s = .error (.registerAccess offset width) ∧
      regWrite offset width v s = .error (.registerAccess offset width)) ∧
    (∀ (i : Instr) (r : Refusal), exec i s ≠ .refused r)

/-! ### The pulse counters (41_tachometer.md) -/

/-- config_tachometer of a new oid on a mapped pin, with room in the table, makes the instance,
disabled and at 0, binds the line to it, and leaves every other instance and the line's mode, enable
and flag as they are (R150). -/
def Obligations.ConfigTachometerMakesTheInstance : Prop :=
  ∀ (s : State) (oid : Oid) (pin : Pin) (n : Line), TaskReady s → tachOf s oid = none →
    lineOfPin s.config pin = some n → s.tach.length ≠ s.config.maxTach →
    ∃ t, exec (.configTachometer oid pin) s = .next t ∧
      tachOf t oid = some { line := n, pulseCount := 0, enabled := false, activeMode := none } ∧
      (∀ o, o ≠ oid → tachOf t o = tachOf s o) ∧
      t.owner[n] = some oid ∧ t.handler[n] = .tachCount ∧
      SameElsewhere n s.owner t.owner ∧ SameElsewhere n s.handler t.handler ∧
      t = { s with tach := t.tach, owner := t.owner, handler := t.handler }

/-- set_tach_irq_state with a mode 0 to 3, of an instance that is disabled or in another mode, enables
it in that mode and programs its line; the count and every other instance stay (R151). -/
def Obligations.SetTachIrqStateEnables : Prop :=
  ∀ (s : State) (oid : Oid) (a : Tach) (k : Mode), TaskReady s → tachOf s oid = some a →
    a.line.val < s.config.nLines → (a.enabled = false ∨ a.activeMode ≠ some k) →
    ∃ t, exec (.setTachIrqState oid k.number) s = .next t ∧
      tachOf t oid = some { a with enabled := true, activeMode := some k } ∧
      (∀ o, o ≠ oid → tachOf t o = tachOf s o) ∧
      t.trig[a.line] = k.number.extractLsb' 0 2 ∧ t.en[a.line] = true ∧ t.pf[a.line] = false ∧
      SameElsewhere a.line s.trig t.trig ∧ SameElsewhere a.line s.en t.en ∧
      SameElsewhere a.line s.pf t.pf ∧
      t = { s with tach := t.tach, trig := t.trig, en := t.en, pf := t.pf, draws := t.draws }

/-- set_tach_irq_state with mode 4, of an enabled instance, disables it and its line; the count and
every other instance stay (R151). -/
def Obligations.SetTachIrqStateDisables : Prop :=
  ∀ (s : State) (oid : Oid) (a : Tach), TaskReady s → tachOf s oid = some a →
    a.line.val < s.config.nLines → a.enabled = true →
    ∃ t, exec (.setTachIrqState oid 4) s = .next t ∧
      tachOf t oid = some { a with enabled := false, activeMode := none } ∧
      (∀ o, o ≠ oid → tachOf t o = tachOf s o) ∧
      t.trig[a.line] = 0b00 ∧ t.en[a.line] = false ∧
      (t.pf[a.line] = s.pf[a.line] ∨ (s.trig[a.line] ≠ 0b00 ∧ t.pf[a.line] = true)) ∧
      SameElsewhere a.line s.trig t.trig ∧ SameElsewhere a.line s.en t.en ∧
      SameElsewhere a.line s.pf t.pf ∧
      t = { s with tach := t.tach, trig := t.trig, en := t.en, pf := t.pf, draws := t.draws }

/-- An unchanged mode and a redundant disable change nothing at all, so a mode is never re-applied
(R151; 70_reset_and_hazards.md R266). -/
def Obligations.UnchangedModeIsNotReapplied : Prop :=
  ∀ (s : State) (oid : Oid) (a : Tach), TaskReady s → tachOf s oid = some a →
    (∀ k : Mode, a.enabled = true → a.activeMode = some k →
      exec (.setTachIrqState oid k.number) s = .next s) ∧
    (a.enabled = false → exec (.setTachIrqState oid 4) s = .next s)

/-- The second of two identical set_tach_irq_state commands changes nothing, for every mode (R151
corner 1). -/
def Obligations.RepeatedModeChangeIsIdempotent : Prop :=
  ∀ (s t : State) (oid : Oid) (mode : Byte), TaskReady s →
    exec (.setTachIrqState oid mode) s = .next t → Running t →
    exec (.setTachIrqState oid mode) t = .next t

/-- drain_task, with the wake signal up, clears it and takes the set of enabled instances, or starts no
drain when there is none; nothing else changes (R153). -/
def Obligations.DrainTaskTakesTheEnabledInstances : Prop :=
  ∀ s : State, TaskReady s → s.wakeFlag = true → Rising s.tach →
    ∃ t, exec .drainTask s = .next t ∧
      (∀ left, t.drainLeft = some left →
        left ≠ [] ∧ left.Nodup ∧
        ∀ oid, oid ∈ left ↔ ∃ a, tachOf s oid = some a ∧ a.enabled = true) ∧
      (t.drainLeft = none → ∀ oid a, tachOf s oid = some a → a.enabled = false) ∧
      t = { s with wakeFlag := false, drainLeft := t.drainLeft }

/-- drain_step of an oid still to be read reads and resets its count, appends one report with the count
read to `OUT`, whatever the count, and takes the oid off the set; nothing else changes (R155,
R154). -/
def Obligations.DrainStepReadsResetsAndReports : Prop :=
  ∀ (s : State) (oid : Oid) (left : List Oid) (a : Tach), Running s → s.drainLeft = some left →
    oid ∈ left → tachOf s oid = some a →
    ∃ t, exec (.drainStep oid) s = .next t ∧
      tachOf t oid = some { a with pulseCount := 0 } ∧
      (∀ o, o ≠ oid → tachOf t o = tachOf s o) ∧
      t.out = s.out ++ [encode (.tachResponse oid a.pulseCount)] ∧
      (t.drainLeft = none ↔ ∀ o ∈ left, o = oid) ∧
      (∀ left', t.drainLeft = some left' → ∀ o, o ∈ left' ↔ o ∈ left ∧ o ≠ oid) ∧
      t = { s with tach := t.tach, out := t.out, drainLeft := t.drainLeft }

/-- tach_response appends its frame at the tail of `OUT` and writes nothing else (R154); the frame has
OP 0x81, the oid in F1, the count in ARG0 and every other bit 0 (30_encoding.md R89, with its
example). -/
def Obligations.TachResponseJoinsOut : Prop :=
  (∀ (s : State) (oid : Oid) (count : Word), Running s →
    exec (.tachResponse oid count) s =
      .next { s with out := s.out ++ [encode (.tachResponse oid count)] }) ∧
  (∀ (oid : Oid) (count : Word),
    let f := encode (.tachResponse oid count)
    f.op = 0x81 ∧ f.f1 = oid ∧ f.arg0 = count ∧ f.f2 = 0 ∧ f.rsv = 0 ∧ f.arg1 = 0) ∧
  Frame.toBytes (encode (.tachResponse 3 7)) =
    [0x81, 0x03, 0x00, 0x00, 0x07, 0x00, 0x00, 0x00, 0x00, 0x00, 0x00, 0x00]

/-- The block reports nothing but drained counts of enabled instances: only drain_step (and a report
placed by hand) adds to `OUT`, and a drain_step reports an instance that is enabled (R157;
10_state.md R37). -/
def Obligations.OnlyEnabledInstancesAreReported : Prop :=
  ∀ (i : Instr) (s t : State), BlockInv s → exec i s = .next t → isReport i = false →
    t.out = s.out ∨
      ∃ oid a, i = .drainStep oid ∧ tachOf s oid = some a ∧ a.enabled = true ∧
        t.out = s.out ++ [encode (.tachResponse oid a.pulseCount)]

/-- No handler invocation is lost: over any run of operations, the counts reported for an oid and its
current count grow together by the number of tach_count calls for it, modulo 2^32 (R156). Reports
placed by hand are no part of a run here. -/
def Obligations.NoHandlerInvocationIsLost : Prop :=
  ∀ (run : List Instr) (s t : State) (oid : Oid), (∀ i ∈ run, isReport i = false) →
    execAll run s = .next t →
    ledger oid t = ledger oid s + BitVec.ofNat 32 (pulseCalls oid run s)

/-- An instance once made is never destroyed and never changes its line (10_state.md R34, R35), and its
count is written only by the service routine of a line and by its own drain step (R36), so that
disabling does not clear it. Whether it is enabled, and its mode, are written only by set_tach_irq_state
of its own oid (R37, R38). -/
def Obligations.InstancesAreKept : Prop :=
  ∀ (i : Instr) (s t : State) (oid : Oid) (a : Tach), exec i s = .next t → tachOf s oid = some a →
    ∃ b, tachOf t oid = some b ∧ b.line = a.line ∧
      (b.pulseCount ≠ a.pulseCount → (∃ line, i = .lineIsr line) ∨ i = .drainStep oid) ∧
      (b.enabled ≠ a.enabled ∨ b.activeMode ≠ a.activeMode → ∃ mode, i = .setTachIrqState oid mode)

/-! ### The timer and the clock (42_tach_timer.md) -/

/-- update_tach_timer replaces the wake time and the interval, and the timer is scheduled exactly when
the interval is not 0; the wake signal, the drain and every counter stay; the frame has OP 0x02, the
wake time in ARG0 and the interval in ARG1 (R190). -/
def Obligations.UpdateTachTimerReplacesTheWake : Prop :=
  ∀ (s : State) (clock rest : Word), TaskReady s →
    (let f := encode (.updateTachTimer clock rest)
     f.op = 0x02 ∧ f.arg0 = clock ∧ f.arg1 = rest) ∧
    ∃ t, exec (.updateTachTimer clock rest) s = .next t ∧
      t.ttWake = clock ∧ t.ttRest = rest ∧ (t.ttActive = true ↔ rest ≠ 0) ∧
      t = { s with ttActive := t.ttActive, ttWake := t.ttWake, ttRest := t.ttRest }

/-- timer_isr of a scheduled, due timer advances the wake time by the interval, modulo 2^32, and raises
the wake signal; the timer stays scheduled (R191). -/
def Obligations.TimerIsrAdvancesTheWake : Prop :=
  ∀ s : State, Running s → s.ttActive = true → due s.clock s.ttWake = true →
    (s.config.lateWakeFault = false ∨ (s.clock - s.ttWake).toNat < s.config.lateLimit.toNat) →
    exec .timerIsr s = .next { s with ttWake := s.ttWake + s.ttRest, wakeFlag := true }

/-- Where the variant may fault on a late wake, a late expiry either faults LateWake or does what any
expiry does (R191; 93_implementation_defined.md U5). The count of draws is the model's own. -/
def Obligations.LateExpiryFaultsOrAdvances : Prop :=
  ∀ s : State, Running s → s.ttActive = true → due s.clock s.ttWake = true →
    s.config.lateWakeFault = true → s.config.lateLimit.toNat ≤ (s.clock - s.ttWake).toNat →
    exec .timerIsr s = Fatal .lateWake (encode .timerIsr) { s with draws := s.draws + 1 } ∨
    exec .timerIsr s =
      .next { s with ttWake := s.ttWake + s.ttRest, wakeFlag := true, draws := s.draws + 1 }

/-- clock_tick adds one to the clock, modulo 2^32, and does nothing else; its frame has OP 0x21
(R192). -/
def Obligations.ClockTickAddsOne : Prop :=
  Frame.op (encode .clockTick) = 0x21 ∧
  ∀ s : State, Running s → ∃ t, exec .clockTick s = .next t ∧
    t.clock.toNat = (s.clock.toNat + 1) % 2 ^ 32 ∧ t = { s with clock := t.clock }

/-- The due test: a wake time 0 to 2^31 - 1 ticks behind is due and one 1 to 2^31 ticks ahead is not;
after an expiry d ticks late the next wake time is due at once exactly when the interval is at most d
or above 2^31 + d (R193). -/
def Obligations.DueTest : Prop :=
  (∀ now w : Word, due now w = true ↔ (now.toNat + 2 ^ 32 - w.toNat) % 2 ^ 32 < 2 ^ 31) ∧
  (∀ now w : Word, due now w = true ↔ 0 ≤ (now - w).toInt) ∧
  (∀ (now : Word) (k : Nat), 1 ≤ k → k ≤ 2 ^ 31 → due now (now + BitVec.ofNat 32 k) = false) ∧
  (∀ (now : Word) (k : Nat), k ≤ 2 ^ 31 - 1 → due now (now - BitVec.ofNat 32 k) = true) ∧
  (∀ (w rest : Word) (d : Nat), d < 2 ^ 31 →
    ((due (w + BitVec.ofNat 32 d) (w + rest) = true ↔ (BitVec.ofNat 32 d - rest).toNat < 2 ^ 31) ∧
     (due (w + BitVec.ofNat 32 d) (w + rest) = true ↔ rest.toNat ≤ d ∨ 2 ^ 31 + d < rest.toNat))) ∧
  (∀ w : Word, due w (w + 0x80000000#32) = false)

/-- Fixed-rate schedule: after update_tach_timer with a nonzero interval R and wake time C, and with no
later update_tach_timer, the wake time after k expiries is C + k*R modulo 2^32, whenever they ran
(R194). -/
def Obligations.FixedRateSchedule : Prop :=
  ∀ (s s0 t : State) (clock rest : Word) (run : List Instr), TaskReady s → rest ≠ 0 →
    exec (.updateTachTimer clock rest) s = .next s0 →
    (∀ i ∈ run, isUpdateTimer i = false) → execAll run s0 = .next t →
    t.ttWake = clock + BitVec.ofNat 32 (expiries run s0) * rest ∧
    t.ttRest = rest ∧ t.ttActive = true

/-! ### Who writes what -/

/-- Only the trigger-mode operations write a line's enable and mode, only they, pin_change and line_isr
its pending flag, and only the registering ones its owner and handler (10_state.md R21 to R24). -/
def Obligations.LineFieldWriters : Prop :=
  ∀ (i : Instr) (s t : State), exec i s = .next t →
    (t.trig ≠ s.trig ∨ t.en ≠ s.en →
      (∃ line mode, i = .lineSetTriggerMode line mode) ∨ (∃ line, i = .lineUnregister line) ∨
        ∃ oid mode, i = .setTachIrqState oid mode) ∧
    (t.pf ≠ s.pf →
      (∃ level pin, i = .pinChange level pin) ∨ (∃ line, i = .lineIsr line) ∨
        (∃ line mode, i = .lineSetTriggerMode line mode) ∨ (∃ line, i = .lineUnregister line) ∨
        ∃ oid mode, i = .setTachIrqState oid mode) ∧
    (t.owner ≠ s.owner ∨ t.handler ≠ s.handler →
      (∃ owner hsel pin, i = .lineRegister owner hsel pin) ∨ (∃ line, i = .lineUnregister line) ∨
        ∃ oid pin, i = .configTachometer oid pin)

/-- Only pin_change writes a pin's level, only clock_tick the clock, only update_tach_timer and the
expiry the timer record, only the expiry and drain_task the wake signal, only the drain its progress,
and no operation the parameters (10_state.md R20, R31, R40 to R44, R52). -/
def Obligations.EnvironmentAndTimerWriters : Prop :=
  ∀ (i : Instr) (s t : State), exec i s = .next t →
    (t.level ≠ s.level → ∃ level pin, i = .pinChange level pin) ∧
    (t.clock ≠ s.clock → i = .clockTick) ∧
    (t.ttActive ≠ s.ttActive ∨ t.ttRest ≠ s.ttRest → ∃ clock rest, i = .updateTachTimer clock rest) ∧
    (t.ttWake ≠ s.ttWake → i = .timerIsr ∨ ∃ clock rest, i = .updateTachTimer clock rest) ∧
    (t.wakeFlag ≠ s.wakeFlag → i = .timerIsr ∨ i = .drainTask) ∧
    (t.drainLeft ≠ s.drainLeft → i = .drainTask ∨ ∃ oid, i = .drainStep oid) ∧
    t.config = s.config ∧ t.inbox = s.inbox ∧ t.turns = s.turns
end

