-- ==== Sys2Proof/Laws/Decode.lean ====
section
/-! SUPPORT. The fields of a packed frame, a frame from its fields, and the decoder one opcode at a
time. -/

namespace Sys2Proof

/-! ### Fields and packing -/

@[simp] theorem op_packFrame (op f1 f2 : Byte) (arg0 arg1 : Word) :
    Frame.op (packFrame op f1 f2 arg0 arg1) = op := by
  apply BitVec.eq_of_getLsbD_eq
  intro i hi
  simp only [Frame.op, packFrame, BitVec.getLsbD_extractLsb', BitVec.getLsbD_append, hi,
    decide_true, Bool.true_and]
  split_ifs <;> first | omega | (congr 1; omega)

@[simp] theorem f1_packFrame (op f1 f2 : Byte) (arg0 arg1 : Word) :
    Frame.f1 (packFrame op f1 f2 arg0 arg1) = f1 := by
  apply BitVec.eq_of_getLsbD_eq
  intro i hi
  simp only [Frame.f1, packFrame, BitVec.getLsbD_extractLsb', BitVec.getLsbD_append, hi,
    decide_true, Bool.true_and]
  split_ifs <;> first | omega | (congr 1; omega)

@[simp] theorem f2_packFrame (op f1 f2 : Byte) (arg0 arg1 : Word) :
    Frame.f2 (packFrame op f1 f2 arg0 arg1) = f2 := by
  apply BitVec.eq_of_getLsbD_eq
  intro i hi
  simp only [Frame.f2, packFrame, BitVec.getLsbD_extractLsb', BitVec.getLsbD_append, hi,
    decide_true, Bool.true_and]
  split_ifs <;> first | omega | (congr 1; omega)

@[simp] theorem rsv_packFrame (op f1 f2 : Byte) (arg0 arg1 : Word) :
    Frame.rsv (packFrame op f1 f2 arg0 arg1) = 0 := by
  apply BitVec.eq_of_getLsbD_eq
  intro i hi
  simp only [Frame.rsv, packFrame, BitVec.getLsbD_extractLsb', BitVec.getLsbD_append, hi,
    decide_true, Bool.true_and]
  split_ifs <;> first | omega | (congr 1; omega)

@[simp] theorem arg0_packFrame (op f1 f2 : Byte) (arg0 arg1 : Word) :
    Frame.arg0 (packFrame op f1 f2 arg0 arg1) = arg0 := by
  apply BitVec.eq_of_getLsbD_eq
  intro i hi
  simp only [Frame.arg0, packFrame, BitVec.getLsbD_extractLsb', BitVec.getLsbD_append, hi,
    decide_true, Bool.true_and]
  split_ifs <;> first | omega | (congr 1; omega)

@[simp] theorem arg1_packFrame (op f1 f2 : Byte) (arg0 arg1 : Word) :
    Frame.arg1 (packFrame op f1 f2 arg0 arg1) = arg1 := by
  apply BitVec.eq_of_getLsbD_eq
  intro i hi
  simp only [Frame.arg1, packFrame, BitVec.getLsbD_extractLsb', BitVec.getLsbD_append, hi,
    decide_true, Bool.true_and]
  split_ifs <;> first | omega | (congr 1; omega)

/-- A frame is its fields side by side. -/
theorem fields_append (f : Frame) : f.arg1 ++ f.arg0 ++ f.rsv ++ f.f2 ++ f.f1 ++ f.op = f := by
  apply BitVec.eq_of_getLsbD_eq
  intro i hi
  simp only [Frame.op, Frame.f1, Frame.f2, Frame.rsv, Frame.arg0, Frame.arg1,
    BitVec.getLsbD_extractLsb', BitVec.getLsbD_append]
  split_ifs <;> (rw [decide_eq_true (by omega), Bool.true_and]; congr 1; omega)

/-- A frame whose RSV is 0 is the packing of its fields. -/
theorem packFrame_fields {f : Frame} (h : f.rsv = 0) :
    packFrame f.op f.f1 f.f2 f.arg0 f.arg1 = f := by
  have hf := fields_append f
  rw [h] at hf
  exact hf

/-- Two neighbouring fields of a frame, side by side, are one field. -/
theorem extract_append (f : Frame) (a m n : Nat) :
    f.extractLsb' (a + n) m ++ f.extractLsb' a n = f.extractLsb' a (m + n) := by
  apply BitVec.eq_of_getLsbD_eq
  intro i hi
  simp only [BitVec.getLsbD_extractLsb', BitVec.getLsbD_append, hi, decide_true, Bool.true_and]
  split_ifs with h
  · simp [h]
  · rw [decide_eq_true (by omega), Bool.true_and]
    congr 1
    omega

/-- A frame is its twelve bytes side by side (30_encoding.md R82). -/
theorem bytes_append (f : Frame) :
    f.byte 11 ++ f.byte 10 ++ f.byte 9 ++ f.byte 8 ++ f.byte 7 ++ f.byte 6 ++ f.byte 5 ++
      f.byte 4 ++ f.byte 3 ++ f.byte 2 ++ f.byte 1 ++ f.byte 0 = f := by
  have h := fun a m => extract_append f a m 8
  simp only [Frame.byte]
  rw [h 80 8, h 72 16, h 64 24, h 56 32, h 48 40, h 40 48, h 32 56, h 24 64, h 16 72, h 8 80,
    h 0 88]
  apply BitVec.eq_of_getLsbD_eq
  intro i hi
  simp [hi]

/-! ### The decoder, by opcode -/

@[simp] theorem whenReservedZero_ok_iff {b : Bool} {i j : Instr} :
    whenReservedZero b i = .ok j ↔ b = true ∧ i = j := by
  cases b <;> simp [whenReservedZero]

theorem decode_configTachometer {f : Frame} (h : f.op = 0x01#8) :
    decode f =
      whenReservedZero (f.f2 == 0 && f.rsv == 0 && f.arg1 == 0)
        (.configTachometer f.f1 f.arg0) := by
  simp [decode, h]

theorem decode_updateTachTimer {f : Frame} (h : f.op = 0x02#8) :
    decode f =
      whenReservedZero (f.f1 == 0 && f.f2 == 0 && f.rsv == 0)
        (.updateTachTimer f.arg0 f.arg1) := by
  simp [decode, h]

theorem decode_setTachIrqState {f : Frame} (h : f.op = 0x03#8) :
    decode f =
      whenReservedZero (f.rsv == 0 && f.arg0 == 0 && f.arg1 == 0)
        (.setTachIrqState f.f1 f.f2) := by
  simp [decode, h]

theorem decode_lineSetTriggerMode {f : Frame} (h : f.op = 0x11#8) :
    decode f =
      whenReservedZero (f.rsv == 0 && f.arg0 == 0 && f.arg1 == 0)
        (.lineSetTriggerMode f.f1 f.f2) := by
  simp [decode, h]

theorem decode_lineUnregister {f : Frame} (h : f.op = 0x12#8) :
    decode f =
      whenReservedZero (f.f2 == 0 && f.rsv == 0 && f.arg0 == 0 && f.arg1 == 0)
        (.lineUnregister f.f1) := by
  simp [decode, h]

theorem decode_clockTick {f : Frame} (h : f.op = 0x21#8) :
    decode f =
      whenReservedZero (f.f1 == 0 && f.f2 == 0 && f.rsv == 0 && f.arg0 == 0 && f.arg1 == 0)
        (.clockTick) := by
  simp [decode, h]

theorem decode_lineIsr {f : Frame} (h : f.op = 0x22#8) :
    decode f =
      whenReservedZero (f.f2 == 0 && f.rsv == 0 && f.arg0 == 0 && f.arg1 == 0)
        (.lineIsr f.f1) := by
  simp [decode, h]

theorem decode_timerIsr {f : Frame} (h : f.op = 0x23#8) :
    decode f =
      whenReservedZero (f.f1 == 0 && f.f2 == 0 && f.rsv == 0 && f.arg0 == 0 && f.arg1 == 0)
        (.timerIsr) := by
  simp [decode, h]

theorem decode_drainTask {f : Frame} (h : f.op = 0x24#8) :
    decode f =
      whenReservedZero (f.f1 == 0 && f.f2 == 0 && f.rsv == 0 && f.arg0 == 0 && f.arg1 == 0)
        (.drainTask) := by
  simp [decode, h]

theorem decode_drainStep {f : Frame} (h : f.op = 0x25#8) :
    decode f =
      whenReservedZero (f.f2 == 0 && f.rsv == 0 && f.arg0 == 0 && f.arg1 == 0)
        (.drainStep f.f1) := by
  simp [decode, h]

theorem decode_tachResponse {f : Frame} (h : f.op = 0x81#8) :
    decode f =
      whenReservedZero (f.f2 == 0 && f.rsv == 0 && f.arg1 == 0)
        (.tachResponse f.f1 f.arg0) := by
  simp [decode, h]

theorem decode_lineRegister {f : Frame} (h : f.op = 0x10#8) :
    decode f =
      if f.f2 ≤ 1#8 then whenReservedZero (f.rsv == 0 && f.arg1 == 0) (.lineRegister f.f1 f.f2 f.arg0)
      else .error .badHsel := by
  simp [decode, h]

theorem decode_pinChange {f : Frame} (h : f.op = 0x20#8) :
    decode f =
      if f.f2 ≤ 1#8 then whenReservedZero (f.f1 == 0 && f.rsv == 0 && f.arg1 == 0) (.pinChange f.f2 f.arg0)
      else .error .badLevel := by
  simp [decode, h]

/-- An opcode of rule R85. -/
abbrev OpcodeListed (op : Byte) : Prop :=
  op = 0x01#8 ∨ op = 0x02#8 ∨ op = 0x03#8 ∨ op = 0x10#8 ∨ op = 0x11#8 ∨ op = 0x12#8 ∨ op = 0x20#8 ∨
  op = 0x21#8 ∨ op = 0x22#8 ∨ op = 0x23#8 ∨ op = 0x24#8 ∨ op = 0x25#8 ∨ op = 0x81#8

theorem decode_reservedOpcode {f : Frame} (h : ¬ OpcodeListed f.op) :
    decode f = .error .reservedOpcode := by
  simp only [OpcodeListed, not_or] at h
  simp only [decode, h, if_false]

end Sys2Proof
end

