-- ==== Sys2Proof/Laws/Keyed.lean ====
section
/-! SUPPORT. Keyed lists: reading after a write, and that a write keeps the rising form. -/

namespace Sys2Proof.Machine

variable {w : Nat} {α : Type}

/-- A read of the key just written gives the value written. -/
@[simp] theorem lookup_keyPut_self (k : BitVec w) (v : α) (m : List (BitVec w × α)) :
    (keyPut k v m).lookup k = some v := by
  induction m with
  | nil => simp [keyPut]
  | cons e rest ih =>
    unfold keyPut
    split
    · simp
    · split
      · simp
      · rename_i hne
        have : (k == e.1) = false := by simpa using hne
        simp [List.lookup, this, ih]

/-- A read of another key gives what it gave before. -/
theorem lookup_keyPut_ne {k j : BitVec w} (h : j ≠ k) (v : α) (m : List (BitVec w × α)) :
    (keyPut k v m).lookup j = m.lookup j := by
  have hjk : (j == k) = false := by simpa using h
  induction m with
  | nil => simp [keyPut, List.lookup, hjk]
  | cons e rest ih =>
    unfold keyPut
    split
    · simp [List.lookup, hjk]
    · split
      · rename_i he
        subst he
        simp [List.lookup, hjk]
      · simp only [List.lookup]
        split <;> simp_all

/-- Every key of the list after a write is the key written or one of those before. -/
theorem mem_keyPut {k : BitVec w} {v : α} {m : List (BitVec w × α)} {e : BitVec w × α}
    (h : e ∈ keyPut k v m) : e = (k, v) ∨ e ∈ m := by
  induction m with
  | nil => simpa [keyPut] using h
  | cons a rest ih =>
    unfold keyPut at h
    split at h
    · simpa using h
    · split at h
      · simp only [List.mem_cons] at h ⊢
        tauto
      · simp only [List.mem_cons] at h ⊢
        rcases h with h | h
        · tauto
        · rcases ih h with h | h <;> tauto

/-- A write keeps the rising form. -/
theorem keyPut_rising {m : List (BitVec w × α)} (h : Rising m) (k : BitVec w) (v : α) :
    Rising (keyPut k v m) := by
  induction m with
  | nil => simp [keyPut, Rising]
  | cons a rest ih =>
    have hrest : Rising rest := h.of_cons
    have ha : ∀ e ∈ rest, a.1 < e.1 := fun e he => List.rel_of_pairwise_cons h he
    unfold keyPut
    split
    · rename_i hlt
      refine List.pairwise_cons.2 ⟨fun e he => ?_, h⟩
      rcases List.mem_cons.1 he with rfl | he
      · exact hlt
      · exact BitVec.lt_trans hlt (ha e he)
    · split
      · rename_i heq
        subst heq
        exact List.pairwise_cons.2 ⟨ha, hrest⟩
      · rename_i hnlt hne
        refine List.pairwise_cons.2 ⟨fun e he => ?_, ih hrest⟩
        rcases mem_keyPut he with rfl | he
        · have h1 : ¬ k.toNat < a.1.toNat := fun hh => hnlt (BitVec.lt_def.2 hh)
          have h2 : k.toNat ≠ a.1.toNat := fun hh => hne (BitVec.eq_of_toNat_eq hh)
          exact BitVec.lt_def.2 (by simp only; omega)
        · exact ha e he

/-- In a rising list, reading a key finds exactly the entry listed under it. -/
theorem lookup_eq_some_iff_mem {m : List (BitVec w × α)} (h : Rising m) (k : BitVec w) (v : α) :
    m.lookup k = some v ↔ (k, v) ∈ m := by
  induction m with
  | nil => simp [List.lookup]
  | cons a rest ih =>
    have hrest : Rising rest := h.of_cons
    have ha : ∀ e ∈ rest, a.1 < e.1 := fun e he => List.rel_of_pairwise_cons h he
    obtain ⟨ak, av⟩ := a
    by_cases hk : k = ak
    · subst hk
      have hnot : (k, v) ∉ rest := by
        intro hm
        have hlt := ha _ hm
        exact BitVec.lt_irrefl _ hlt
      simp [List.lookup, hnot, eq_comm]
    · have hk' : (k == ak) = false := by simpa using hk
      simp [List.lookup, hk', ih hrest, hk]

/-- A key is listed exactly when reading it gives a value. -/
theorem lookup_isSome_iff (m : List (BitVec w × α)) (k : BitVec w) :
    (m.lookup k).isSome ↔ k ∈ m.map Prod.fst := by
  induction m with
  | nil => simp [List.lookup]
  | cons a rest ih =>
    obtain ⟨ak, av⟩ := a
    by_cases hk : k = ak
    · subst hk; simp [List.lookup]
    · have hk' : (k == ak) = false := by simpa using hk
      simp [List.lookup, hk', ih, hk]

/-- A write of a listed key keeps the keys as they are. -/
theorem keys_keyPut_of_mem {m : List (BitVec w × α)} (h : Rising m) {k : BitVec w}
    (hk : k ∈ m.map Prod.fst) (v : α) : (keyPut k v m).map Prod.fst = m.map Prod.fst := by
  induction m with
  | nil => simp at hk
  | cons a rest ih =>
    have hrest : Rising rest := h.of_cons
    have ha : ∀ e ∈ rest, a.1 < e.1 := fun e he => List.rel_of_pairwise_cons h he
    obtain ⟨ak, av⟩ := a
    unfold keyPut
    by_cases heq : k = ak
    · subst heq
      simp [BitVec.lt_irrefl]
    · have hm : k ∈ rest.map Prod.fst := by simpa [heq] using hk
      have hlt : ¬ k < ak := by
        intro hh
        obtain ⟨e, he, rfl⟩ := List.mem_map.1 hm
        exact BitVec.lt_irrefl _ (BitVec.lt_trans hh (ha e he))
      simp [hlt, heq, ih hrest hm]

/-- A write of a listed key keeps the length. -/
theorem length_keyPut_of_mem {m : List (BitVec w × α)} (h : Rising m) {k : BitVec w}
    (hk : k ∈ m.map Prod.fst) (v : α) : (keyPut k v m).length = m.length := by
  simpa using congrArg List.length (keys_keyPut_of_mem h hk v)

/-- A write makes the list at most one entry longer. -/
theorem length_keyPut_le (k : BitVec w) (v : α) (m : List (BitVec w × α)) :
    (keyPut k v m).length ≤ m.length + 1 := by
  induction m with
  | nil => simp [keyPut]
  | cons a rest ih =>
    unfold keyPut
    split
    · simp
    · split <;> simp [ih]

/-- A write before the head. -/
theorem keyPut_cons_lt {k j : BitVec w} (h : k < j) (v x : α) (r : List (BitVec w × α)) :
    keyPut k v ((j, x) :: r) = (k, v) :: (j, x) :: r := by simp [keyPut, h]

/-- A write at the head. -/
theorem keyPut_cons_self (k : BitVec w) (v x : α) (r : List (BitVec w × α)) :
    keyPut k v ((k, x) :: r) = (k, v) :: r := by simp [keyPut]

/-- A write after the head. -/
theorem keyPut_cons_gt {k j : BitVec w} (h : j < k) (v x : α) (r : List (BitVec w × α)) :
    keyPut k v ((j, x) :: r) = (j, x) :: keyPut k v r := by
  have h1 : ¬ k < j := by rw [BitVec.lt_def] at *; omega
  have h2 : ¬ k = j := by rintro rfl; rw [BitVec.lt_def] at h; omega
  simp [keyPut, h1, h2]

/-- Writes of two keys commute, the smaller key written last on the left. -/
theorem keyPut_comm_lt {k k' : BitVec w} (hk : k < k') (v v' : α)
    (m : List (BitVec w × α)) : keyPut k v (keyPut k' v' m) = keyPut k' v' (keyPut k v m) := by
  induction m with
  | nil =>
    show keyPut k v [(k', v')] = keyPut k' v' [(k, v)]
    rw [keyPut_cons_lt hk, keyPut_cons_gt hk]; rfl
  | cons e rest ih =>
    obtain ⟨j, x⟩ := e
    have tri : ∀ a b : BitVec w, a < b ∨ a = b ∨ b < a := by
      intro a b; simp only [BitVec.lt_def, ← BitVec.toNat_inj]; omega
    rcases tri k j with h | rfl | h
    · rw [keyPut_cons_lt h, keyPut_cons_gt hk]
      rcases tri k' j with h' | rfl | h'
      · rw [keyPut_cons_lt h', keyPut_cons_lt hk]
      · rw [keyPut_cons_self, keyPut_cons_lt h]
      · rw [keyPut_cons_gt h', keyPut_cons_lt h]
    · rw [keyPut_cons_gt hk, keyPut_cons_self, keyPut_cons_self, keyPut_cons_gt hk]
    · rw [keyPut_cons_gt h]
      rcases tri k' j with h' | rfl | h'
      · exact absurd hk (by rw [BitVec.lt_def] at *; omega)
      · exact absurd hk (by rw [BitVec.lt_def] at *; omega)
      · rw [keyPut_cons_gt h', keyPut_cons_gt h, keyPut_cons_gt h', ih]

/-- Writes of different keys commute. -/
theorem keyPut_comm {k k' : BitVec w} (hk : k ≠ k') (v v' : α)
    (m : List (BitVec w × α)) : keyPut k v (keyPut k' v' m) = keyPut k' v' (keyPut k v m) := by
  have : k < k' ∨ k' < k := by
    simp only [BitVec.lt_def]
    have : k.toNat ≠ k'.toNat := fun h => hk (BitVec.eq_of_toNat_eq h)
    omega
  rcases this with h | h
  · exact keyPut_comm_lt h v v' m
  · exact (keyPut_comm_lt h v' v m).symm

end Sys2Proof.Machine
end

