-- ==== Sys2Proof/Laws/State.lean ====
section
/-! SUPPORT. What each shared update of the state leaves in each field: one lemma per field per update. -/

namespace Sys2Proof.Machine

/-! ### setEn -/

@[simp] theorem setEn_trig (n : Line) (v : Bool) (s : State) :
    (setEn n v s).trig = s.trig := rfl
@[simp] theorem setEn_en (n : Line) (v : Bool) (s : State) :
    (setEn n v s).en = s.en.set n.val v n.isLt := rfl
@[simp] theorem setEn_pf (n : Line) (v : Bool) (s : State) :
    (setEn n v s).pf = s.pf := rfl
@[simp] theorem setEn_owner (n : Line) (v : Bool) (s : State) :
    (setEn n v s).owner = s.owner := rfl
@[simp] theorem setEn_handler (n : Line) (v : Bool) (s : State) :
    (setEn n v s).handler = s.handler := rfl
@[simp] theorem setEn_level (n : Line) (v : Bool) (s : State) :
    (setEn n v s).level = s.level := rfl
@[simp] theorem setEn_tach (n : Line) (v : Bool) (s : State) :
    (setEn n v s).tach = s.tach := rfl
@[simp] theorem setEn_ttActive (n : Line) (v : Bool) (s : State) :
    (setEn n v s).ttActive = s.ttActive := rfl
@[simp] theorem setEn_ttWake (n : Line) (v : Bool) (s : State) :
    (setEn n v s).ttWake = s.ttWake := rfl
@[simp] theorem setEn_ttRest (n : Line) (v : Bool) (s : State) :
    (setEn n v s).ttRest = s.ttRest := rfl
@[simp] theorem setEn_wakeFlag (n : Line) (v : Bool) (s : State) :
    (setEn n v s).wakeFlag = s.wakeFlag := rfl
@[simp] theorem setEn_drainLeft (n : Line) (v : Bool) (s : State) :
    (setEn n v s).drainLeft = s.drainLeft := rfl
@[simp] theorem setEn_clock (n : Line) (v : Bool) (s : State) :
    (setEn n v s).clock = s.clock := rfl
@[simp] theorem setEn_out (n : Line) (v : Bool) (s : State) :
    (setEn n v s).out = s.out := rfl
@[simp] theorem setEn_fault (n : Line) (v : Bool) (s : State) :
    (setEn n v s).fault = s.fault := rfl
@[simp] theorem setEn_config (n : Line) (v : Bool) (s : State) :
    (setEn n v s).config = s.config := rfl
@[simp] theorem setEn_inbox (n : Line) (v : Bool) (s : State) :
    (setEn n v s).inbox = s.inbox := rfl
@[simp] theorem setEn_turns (n : Line) (v : Bool) (s : State) :
    (setEn n v s).turns = s.turns := rfl
@[simp] theorem setEn_draws (n : Line) (v : Bool) (s : State) :
    (setEn n v s).draws = s.draws := rfl

/-! ### setPf -/

@[simp] theorem setPf_trig (n : Line) (v : Bool) (s : State) :
    (setPf n v s).trig = s.trig := rfl
@[simp] theorem setPf_en (n : Line) (v : Bool) (s : State) :
    (setPf n v s).en = s.en := rfl
@[simp] theorem setPf_pf (n : Line) (v : Bool) (s : State) :
    (setPf n v s).pf = s.pf.set n.val v n.isLt := rfl
@[simp] theorem setPf_owner (n : Line) (v : Bool) (s : State) :
    (setPf n v s).owner = s.owner := rfl
@[simp] theorem setPf_handler (n : Line) (v : Bool) (s : State) :
    (setPf n v s).handler = s.handler := rfl
@[simp] theorem setPf_level (n : Line) (v : Bool) (s : State) :
    (setPf n v s).level = s.level := rfl
@[simp] theorem setPf_tach (n : Line) (v : Bool) (s : State) :
    (setPf n v s).tach = s.tach := rfl
@[simp] theorem setPf_ttActive (n : Line) (v : Bool) (s : State) :
    (setPf n v s).ttActive = s.ttActive := rfl
@[simp] theorem setPf_ttWake (n : Line) (v : Bool) (s : State) :
    (setPf n v s).ttWake = s.ttWake := rfl
@[simp] theorem setPf_ttRest (n : Line) (v : Bool) (s : State) :
    (setPf n v s).ttRest = s.ttRest := rfl
@[simp] theorem setPf_wakeFlag (n : Line) (v : Bool) (s : State) :
    (setPf n v s).wakeFlag = s.wakeFlag := rfl
@[simp] theorem setPf_drainLeft (n : Line) (v : Bool) (s : State) :
    (setPf n v s).drainLeft = s.drainLeft := rfl
@[simp] theorem setPf_clock (n : Line) (v : Bool) (s : State) :
    (setPf n v s).clock = s.clock := rfl
@[simp] theorem setPf_out (n : Line) (v : Bool) (s : State) :
    (setPf n v s).out = s.out := rfl
@[simp] theorem setPf_fault (n : Line) (v : Bool) (s : State) :
    (setPf n v s).fault = s.fault := rfl
@[simp] theorem setPf_config (n : Line) (v : Bool) (s : State) :
    (setPf n v s).config = s.config := rfl
@[simp] theorem setPf_inbox (n : Line) (v : Bool) (s : State) :
    (setPf n v s).inbox = s.inbox := rfl
@[simp] theorem setPf_turns (n : Line) (v : Bool) (s : State) :
    (setPf n v s).turns = s.turns := rfl
@[simp] theorem setPf_draws (n : Line) (v : Bool) (s : State) :
    (setPf n v s).draws = s.draws := rfl

/-! ### setTrig -/

@[simp] theorem setTrig_en (n : Line) (v : BitVec 2) (s : State) :
    (setTrig n v s).en = s.en := by unfold setTrig; split <;> rfl
@[simp] theorem setTrig_owner (n : Line) (v : BitVec 2) (s : State) :
    (setTrig n v s).owner = s.owner := by unfold setTrig; split <;> rfl
@[simp] theorem setTrig_handler (n : Line) (v : BitVec 2) (s : State) :
    (setTrig n v s).handler = s.handler := by unfold setTrig; split <;> rfl
@[simp] theorem setTrig_level (n : Line) (v : BitVec 2) (s : State) :
    (setTrig n v s).level = s.level := by unfold setTrig; split <;> rfl
@[simp] theorem setTrig_tach (n : Line) (v : BitVec 2) (s : State) :
    (setTrig n v s).tach = s.tach := by unfold setTrig; split <;> rfl
@[simp] theorem setTrig_ttActive (n : Line) (v : BitVec 2) (s : State) :
    (setTrig n v s).ttActive = s.ttActive := by unfold setTrig; split <;> rfl
@[simp] theorem setTrig_ttWake (n : Line) (v : BitVec 2) (s : State) :
    (setTrig n v s).ttWake = s.ttWake := by unfold setTrig; split <;> rfl
@[simp] theorem setTrig_ttRest (n : Line) (v : BitVec 2) (s : State) :
    (setTrig n v s).ttRest = s.ttRest := by unfold setTrig; split <;> rfl
@[simp] theorem setTrig_wakeFlag (n : Line) (v : BitVec 2) (s : State) :
    (setTrig n v s).wakeFlag = s.wakeFlag := by unfold setTrig; split <;> rfl
@[simp] theorem setTrig_drainLeft (n : Line) (v : BitVec 2) (s : State) :
    (setTrig n v s).drainLeft = s.drainLeft := by unfold setTrig; split <;> rfl
@[simp] theorem setTrig_clock (n : Line) (v : BitVec 2) (s : State) :
    (setTrig n v s).clock = s.clock := by unfold setTrig; split <;> rfl
@[simp] theorem setTrig_out (n : Line) (v : BitVec 2) (s : State) :
    (setTrig n v s).out = s.out := by unfold setTrig; split <;> rfl
@[simp] theorem setTrig_fault (n : Line) (v : BitVec 2) (s : State) :
    (setTrig n v s).fault = s.fault := by unfold setTrig; split <;> rfl
@[simp] theorem setTrig_config (n : Line) (v : BitVec 2) (s : State) :
    (setTrig n v s).config = s.config := by unfold setTrig; split <;> rfl
@[simp] theorem setTrig_inbox (n : Line) (v : BitVec 2) (s : State) :
    (setTrig n v s).inbox = s.inbox := by unfold setTrig; split <;> rfl
@[simp] theorem setTrig_turns (n : Line) (v : BitVec 2) (s : State) :
    (setTrig n v s).turns = s.turns := by unfold setTrig; split <;> rfl

/-! ### bindLine -/

@[simp] theorem bindLine_trig (n : Line) (o : Option Oid) (h : Handler) (s : State) :
    (bindLine n o h s).trig = s.trig := rfl
@[simp] theorem bindLine_en (n : Line) (o : Option Oid) (h : Handler) (s : State) :
    (bindLine n o h s).en = s.en := rfl
@[simp] theorem bindLine_pf (n : Line) (o : Option Oid) (h : Handler) (s : State) :
    (bindLine n o h s).pf = s.pf := rfl
@[simp] theorem bindLine_owner (n : Line) (o : Option Oid) (h : Handler) (s : State) :
    (bindLine n o h s).owner = s.owner.set n.val o n.isLt := rfl
@[simp] theorem bindLine_handler (n : Line) (o : Option Oid) (h : Handler) (s : State) :
    (bindLine n o h s).handler = s.handler.set n.val h n.isLt := rfl
@[simp] theorem bindLine_level (n : Line) (o : Option Oid) (h : Handler) (s : State) :
    (bindLine n o h s).level = s.level := rfl
@[simp] theorem bindLine_tach (n : Line) (o : Option Oid) (h : Handler) (s : State) :
    (bindLine n o h s).tach = s.tach := rfl
@[simp] theorem bindLine_ttActive (n : Line) (o : Option Oid) (h : Handler) (s : State) :
    (bindLine n o h s).ttActive = s.ttActive := rfl
@[simp] theorem bindLine_ttWake (n : Line) (o : Option Oid) (h : Handler) (s : State) :
    (bindLine n o h s).ttWake = s.ttWake := rfl
@[simp] theorem bindLine_ttRest (n : Line) (o : Option Oid) (h : Handler) (s : State) :
    (bindLine n o h s).ttRest = s.ttRest := rfl
@[simp] theorem bindLine_wakeFlag (n : Line) (o : Option Oid) (h : Handler) (s : State) :
    (bindLine n o h s).wakeFlag = s.wakeFlag := rfl
@[simp] theorem bindLine_drainLeft (n : Line) (o : Option Oid) (h : Handler) (s : State) :
    (bindLine n o h s).drainLeft = s.drainLeft := rfl
@[simp] theorem bindLine_clock (n : Line) (o : Option Oid) (h : Handler) (s : State) :
    (bindLine n o h s).clock = s.clock := rfl
@[simp] theorem bindLine_out (n : Line) (o : Option Oid) (h : Handler) (s : State) :
    (bindLine n o h s).out = s.out := rfl
@[simp] theorem bindLine_fault (n : Line) (o : Option Oid) (h : Handler) (s : State) :
    (bindLine n o h s).fault = s.fault := rfl
@[simp] theorem bindLine_config (n : Line) (o : Option Oid) (h : Handler) (s : State) :
    (bindLine n o h s).config = s.config := rfl
@[simp] theorem bindLine_inbox (n : Line) (o : Option Oid) (h : Handler) (s : State) :
    (bindLine n o h s).inbox = s.inbox := rfl
@[simp] theorem bindLine_turns (n : Line) (o : Option Oid) (h : Handler) (s : State) :
    (bindLine n o h s).turns = s.turns := rfl
@[simp] theorem bindLine_draws (n : Line) (o : Option Oid) (h : Handler) (s : State) :
    (bindLine n o h s).draws = s.draws := rfl

/-! ### putTach -/

@[simp] theorem putTach_trig (oid : Oid) (t : Tach) (s : State) :
    (putTach oid t s).trig = s.trig := rfl
@[simp] theorem putTach_en (oid : Oid) (t : Tach) (s : State) :
    (putTach oid t s).en = s.en := rfl
@[simp] theorem putTach_pf (oid : Oid) (t : Tach) (s : State) :
    (putTach oid t s).pf = s.pf := rfl
@[simp] theorem putTach_owner (oid : Oid) (t : Tach) (s : State) :
    (putTach oid t s).owner = s.owner := rfl
@[simp] theorem putTach_handler (oid : Oid) (t : Tach) (s : State) :
    (putTach oid t s).handler = s.handler := rfl
@[simp] theorem putTach_level (oid : Oid) (t : Tach) (s : State) :
    (putTach oid t s).level = s.level := rfl
@[simp] theorem putTach_tach (oid : Oid) (t : Tach) (s : State) :
    (putTach oid t s).tach = keyPut oid t s.tach := rfl
@[simp] theorem putTach_ttActive (oid : Oid) (t : Tach) (s : State) :
    (putTach oid t s).ttActive = s.ttActive := rfl
@[simp] theorem putTach_ttWake (oid : Oid) (t : Tach) (s : State) :
    (putTach oid t s).ttWake = s.ttWake := rfl
@[simp] theorem putTach_ttRest (oid : Oid) (t : Tach) (s : State) :
    (putTach oid t s).ttRest = s.ttRest := rfl
@[simp] theorem putTach_wakeFlag (oid : Oid) (t : Tach) (s : State) :
    (putTach oid t s).wakeFlag = s.wakeFlag := rfl
@[simp] theorem putTach_drainLeft (oid : Oid) (t : Tach) (s : State) :
    (putTach oid t s).drainLeft = s.drainLeft := rfl
@[simp] theorem putTach_clock (oid : Oid) (t : Tach) (s : State) :
    (putTach oid t s).clock = s.clock := rfl
@[simp] theorem putTach_out (oid : Oid) (t : Tach) (s : State) :
    (putTach oid t s).out = s.out := rfl
@[simp] theorem putTach_fault (oid : Oid) (t : Tach) (s : State) :
    (putTach oid t s).fault = s.fault := rfl
@[simp] theorem putTach_config (oid : Oid) (t : Tach) (s : State) :
    (putTach oid t s).config = s.config := rfl
@[simp] theorem putTach_inbox (oid : Oid) (t : Tach) (s : State) :
    (putTach oid t s).inbox = s.inbox := rfl
@[simp] theorem putTach_turns (oid : Oid) (t : Tach) (s : State) :
    (putTach oid t s).turns = s.turns := rfl
@[simp] theorem putTach_draws (oid : Oid) (t : Tach) (s : State) :
    (putTach oid t s).draws = s.draws := rfl

/-! ### putLevel -/

@[simp] theorem putLevel_trig (p : Pin) (v : Bool) (s : State) :
    (putLevel p v s).trig = s.trig := rfl
@[simp] theorem putLevel_en (p : Pin) (v : Bool) (s : State) :
    (putLevel p v s).en = s.en := rfl
@[simp] theorem putLevel_pf (p : Pin) (v : Bool) (s : State) :
    (putLevel p v s).pf = s.pf := rfl
@[simp] theorem putLevel_owner (p : Pin) (v : Bool) (s : State) :
    (putLevel p v s).owner = s.owner := rfl
@[simp] theorem putLevel_handler (p : Pin) (v : Bool) (s : State) :
    (putLevel p v s).handler = s.handler := rfl
@[simp] theorem putLevel_level (p : Pin) (v : Bool) (s : State) :
    (putLevel p v s).level = keyPut p v s.level := rfl
@[simp] theorem putLevel_tach (p : Pin) (v : Bool) (s : State) :
    (putLevel p v s).tach = s.tach := rfl
@[simp] theorem putLevel_ttActive (p : Pin) (v : Bool) (s : State) :
    (putLevel p v s).ttActive = s.ttActive := rfl
@[simp] theorem putLevel_ttWake (p : Pin) (v : Bool) (s : State) :
    (putLevel p v s).ttWake = s.ttWake := rfl
@[simp] theorem putLevel_ttRest (p : Pin) (v : Bool) (s : State) :
    (putLevel p v s).ttRest = s.ttRest := rfl
@[simp] theorem putLevel_wakeFlag (p : Pin) (v : Bool) (s : State) :
    (putLevel p v s).wakeFlag = s.wakeFlag := rfl
@[simp] theorem putLevel_drainLeft (p : Pin) (v : Bool) (s : State) :
    (putLevel p v s).drainLeft = s.drainLeft := rfl
@[simp] theorem putLevel_clock (p : Pin) (v : Bool) (s : State) :
    (putLevel p v s).clock = s.clock := rfl
@[simp] theorem putLevel_out (p : Pin) (v : Bool) (s : State) :
    (putLevel p v s).out = s.out := rfl
@[simp] theorem putLevel_fault (p : Pin) (v : Bool) (s : State) :
    (putLevel p v s).fault = s.fault := rfl
@[simp] theorem putLevel_config (p : Pin) (v : Bool) (s : State) :
    (putLevel p v s).config = s.config := rfl
@[simp] theorem putLevel_inbox (p : Pin) (v : Bool) (s : State) :
    (putLevel p v s).inbox = s.inbox := rfl
@[simp] theorem putLevel_turns (p : Pin) (v : Bool) (s : State) :
    (putLevel p v s).turns = s.turns := rfl
@[simp] theorem putLevel_draws (p : Pin) (v : Bool) (s : State) :
    (putLevel p v s).draws = s.draws := rfl

/-! ### raiseFatal -/

@[simp] theorem raiseFatal_trig (c : FaultCode) (f : Frame) (s : State) :
    (raiseFatal c f s).trig = s.trig := rfl
@[simp] theorem raiseFatal_en (c : FaultCode) (f : Frame) (s : State) :
    (raiseFatal c f s).en = s.en := rfl
@[simp] theorem raiseFatal_pf (c : FaultCode) (f : Frame) (s : State) :
    (raiseFatal c f s).pf = s.pf := rfl
@[simp] theorem raiseFatal_owner (c : FaultCode) (f : Frame) (s : State) :
    (raiseFatal c f s).owner = s.owner := rfl
@[simp] theorem raiseFatal_handler (c : FaultCode) (f : Frame) (s : State) :
    (raiseFatal c f s).handler = s.handler := rfl
@[simp] theorem raiseFatal_level (c : FaultCode) (f : Frame) (s : State) :
    (raiseFatal c f s).level = s.level := rfl
@[simp] theorem raiseFatal_tach (c : FaultCode) (f : Frame) (s : State) :
    (raiseFatal c f s).tach = s.tach := rfl
@[simp] theorem raiseFatal_ttActive (c : FaultCode) (f : Frame) (s : State) :
    (raiseFatal c f s).ttActive = s.ttActive := rfl
@[simp] theorem raiseFatal_ttWake (c : FaultCode) (f : Frame) (s : State) :
    (raiseFatal c f s).ttWake = s.ttWake := rfl
@[simp] theorem raiseFatal_ttRest (c : FaultCode) (f : Frame) (s : State) :
    (raiseFatal c f s).ttRest = s.ttRest := rfl
@[simp] theorem raiseFatal_wakeFlag (c : FaultCode) (f : Frame) (s : State) :
    (raiseFatal c f s).wakeFlag = s.wakeFlag := rfl
@[simp] theorem raiseFatal_drainLeft (c : FaultCode) (f : Frame) (s : State) :
    (raiseFatal c f s).drainLeft = s.drainLeft := rfl
@[simp] theorem raiseFatal_clock (c : FaultCode) (f : Frame) (s : State) :
    (raiseFatal c f s).clock = s.clock := rfl
@[simp] theorem raiseFatal_out (c : FaultCode) (f : Frame) (s : State) :
    (raiseFatal c f s).out = s.out := rfl
@[simp] theorem raiseFatal_fault (c : FaultCode) (f : Frame) (s : State) :
    (raiseFatal c f s).fault = some (c, f) := rfl
@[simp] theorem raiseFatal_config (c : FaultCode) (f : Frame) (s : State) :
    (raiseFatal c f s).config = s.config := rfl
@[simp] theorem raiseFatal_inbox (c : FaultCode) (f : Frame) (s : State) :
    (raiseFatal c f s).inbox = s.inbox := rfl
@[simp] theorem raiseFatal_turns (c : FaultCode) (f : Frame) (s : State) :
    (raiseFatal c f s).turns = s.turns := rfl
@[simp] theorem raiseFatal_draws (c : FaultCode) (f : Frame) (s : State) :
    (raiseFatal c f s).draws = s.draws := rfl

/-! ### emit -/

@[simp] theorem emit_trig (f : Frame) (s : State) :
    (emit f s).trig = s.trig := rfl
@[simp] theorem emit_en (f : Frame) (s : State) :
    (emit f s).en = s.en := rfl
@[simp] theorem emit_pf (f : Frame) (s : State) :
    (emit f s).pf = s.pf := rfl
@[simp] theorem emit_owner (f : Frame) (s : State) :
    (emit f s).owner = s.owner := rfl
@[simp] theorem emit_handler (f : Frame) (s : State) :
    (emit f s).handler = s.handler := rfl
@[simp] theorem emit_level (f : Frame) (s : State) :
    (emit f s).level = s.level := rfl
@[simp] theorem emit_tach (f : Frame) (s : State) :
    (emit f s).tach = s.tach := rfl
@[simp] theorem emit_ttActive (f : Frame) (s : State) :
    (emit f s).ttActive = s.ttActive := rfl
@[simp] theorem emit_ttWake (f : Frame) (s : State) :
    (emit f s).ttWake = s.ttWake := rfl
@[simp] theorem emit_ttRest (f : Frame) (s : State) :
    (emit f s).ttRest = s.ttRest := rfl
@[simp] theorem emit_wakeFlag (f : Frame) (s : State) :
    (emit f s).wakeFlag = s.wakeFlag := rfl
@[simp] theorem emit_drainLeft (f : Frame) (s : State) :
    (emit f s).drainLeft = s.drainLeft := rfl
@[simp] theorem emit_clock (f : Frame) (s : State) :
    (emit f s).clock = s.clock := rfl
@[simp] theorem emit_out (f : Frame) (s : State) :
    (emit f s).out = s.out ++ [f] := rfl
@[simp] theorem emit_fault (f : Frame) (s : State) :
    (emit f s).fault = s.fault := rfl
@[simp] theorem emit_config (f : Frame) (s : State) :
    (emit f s).config = s.config := rfl
@[simp] theorem emit_inbox (f : Frame) (s : State) :
    (emit f s).inbox = s.inbox := rfl
@[simp] theorem emit_turns (f : Frame) (s : State) :
    (emit f s).turns = s.turns := rfl
@[simp] theorem emit_draws (f : Frame) (s : State) :
    (emit f s).draws = s.draws := rfl

/-! ### expire -/

@[simp] theorem expire_trig (s : State) :
    (expire s).trig = s.trig := rfl
@[simp] theorem expire_en (s : State) :
    (expire s).en = s.en := rfl
@[simp] theorem expire_pf (s : State) :
    (expire s).pf = s.pf := rfl
@[simp] theorem expire_owner (s : State) :
    (expire s).owner = s.owner := rfl
@[simp] theorem expire_handler (s : State) :
    (expire s).handler = s.handler := rfl
@[simp] theorem expire_level (s : State) :
    (expire s).level = s.level := rfl
@[simp] theorem expire_tach (s : State) :
    (expire s).tach = s.tach := rfl
@[simp] theorem expire_ttActive (s : State) :
    (expire s).ttActive = s.ttActive := rfl
@[simp] theorem expire_ttWake (s : State) :
    (expire s).ttWake = s.ttWake + s.ttRest := rfl
@[simp] theorem expire_ttRest (s : State) :
    (expire s).ttRest = s.ttRest := rfl
@[simp] theorem expire_wakeFlag (s : State) :
    (expire s).wakeFlag = true := rfl
@[simp] theorem expire_drainLeft (s : State) :
    (expire s).drainLeft = s.drainLeft := rfl
@[simp] theorem expire_clock (s : State) :
    (expire s).clock = s.clock := rfl
@[simp] theorem expire_out (s : State) :
    (expire s).out = s.out := rfl
@[simp] theorem expire_fault (s : State) :
    (expire s).fault = s.fault := rfl
@[simp] theorem expire_config (s : State) :
    (expire s).config = s.config := rfl
@[simp] theorem expire_inbox (s : State) :
    (expire s).inbox = s.inbox := rfl
@[simp] theorem expire_turns (s : State) :
    (expire s).turns = s.turns := rfl
@[simp] theorem expire_draws (s : State) :
    (expire s).draws = s.draws := rfl

/-! ### programLine -/

@[simp] theorem programLine_owner (n : Line) (m : Option Mode) (s : State) :
    (programLine n m s).owner = s.owner := by
  cases m <;> simp [programLine]
@[simp] theorem programLine_handler (n : Line) (m : Option Mode) (s : State) :
    (programLine n m s).handler = s.handler := by
  cases m <;> simp [programLine]
@[simp] theorem programLine_level (n : Line) (m : Option Mode) (s : State) :
    (programLine n m s).level = s.level := by
  cases m <;> simp [programLine]
@[simp] theorem programLine_tach (n : Line) (m : Option Mode) (s : State) :
    (programLine n m s).tach = s.tach := by
  cases m <;> simp [programLine]
@[simp] theorem programLine_ttActive (n : Line) (m : Option Mode) (s : State) :
    (programLine n m s).ttActive = s.ttActive := by
  cases m <;> simp [programLine]
@[simp] theorem programLine_ttWake (n : Line) (m : Option Mode) (s : State) :
    (programLine n m s).ttWake = s.ttWake := by
  cases m <;> simp [programLine]
@[simp] theorem programLine_ttRest (n : Line) (m : Option Mode) (s : State) :
    (programLine n m s).ttRest = s.ttRest := by
  cases m <;> simp [programLine]
@[simp] theorem programLine_wakeFlag (n : Line) (m : Option Mode) (s : State) :
    (programLine n m s).wakeFlag = s.wakeFlag := by
  cases m <;> simp [programLine]
@[simp] theorem programLine_drainLeft (n : Line) (m : Option Mode) (s : State) :
    (programLine n m s).drainLeft = s.drainLeft := by
  cases m <;> simp [programLine]
@[simp] theorem programLine_clock (n : Line) (m : Option Mode) (s : State) :
    (programLine n m s).clock = s.clock := by
  cases m <;> simp [programLine]
@[simp] theorem programLine_out (n : Line) (m : Option Mode) (s : State) :
    (programLine n m s).out = s.out := by
  cases m <;> simp [programLine]
@[simp] theorem programLine_fault (n : Line) (m : Option Mode) (s : State) :
    (programLine n m s).fault = s.fault := by
  cases m <;> simp [programLine]
@[simp] theorem programLine_config (n : Line) (m : Option Mode) (s : State) :
    (programLine n m s).config = s.config := by
  cases m <;> simp [programLine]
@[simp] theorem programLine_inbox (n : Line) (m : Option Mode) (s : State) :
    (programLine n m s).inbox = s.inbox := by
  cases m <;> simp [programLine]
@[simp] theorem programLine_turns (n : Line) (m : Option Mode) (s : State) :
    (programLine n m s).turns = s.turns := by
  cases m <;> simp [programLine]

end Sys2Proof.Machine
end

