-- ==== Sys2Proof/Laws/Ops.lean ====
section
/-! SUPPORT. What each shared operation can do, once per operation: the proofs cite these and do not
unfold the operations. -/

namespace Sys2Proof.Machine

/-! ### Guards and endings -/

@[simp] theorem whenRunning_of_running {s : State} (h : s.fault = none) (r : Result) :
    whenRunning s r = r := by simp [whenRunning, h]

@[simp] theorem whenRunning_of_halted {s : State} {x : FaultCode × Frame} (h : s.fault = some x)
    (r : Result) : whenRunning s r = .next s := by simp [whenRunning, h]

@[simp] theorem whenTask_of_ready {s : State} (h : s.fault = none) (hd : s.drainLeft = none)
    (r : Result) : whenTask s r = r := by simp [whenTask, h, hd]

@[simp] theorem whenTask_of_halted {s : State} {x : FaultCode × Frame} (h : s.fault = some x)
    (r : Result) : whenTask s r = .next s := by simp [whenTask, h]

@[simp] theorem whenTask_of_draining {s : State} {left : List Oid} (hd : s.drainLeft = some left)
    (r : Result) : whenTask s r = .next s := by
  simp [whenTask, whenRunning, hd]

@[simp] theorem settle_ok (f : Frame) (s t : State) : settle f s (.ok t) = .next t := rfl

@[simp] theorem settle_error (f : Frame) (s : State) (c : FaultCode) :
    settle f s (.error c) = .next (raiseFatal c f s) := rfl

/-- Settling always gives a next state: what the operation computed, or the fatal error. -/
theorem settle_next (f : Frame) (s : State) (r : Except FaultCode State) :
    (∃ t, r = .ok t ∧ settle f s r = .next t) ∨
      ∃ c, r = .error c ∧ settle f s r = .next (raiseFatal c f s) := by
  cases r <;> simp

/-- A guarded step is the step, or nothing happens. -/
theorem whenRunning_cases (s : State) (r : Result) :
    (s.fault = none ∧ whenRunning s r = r) ∨ (s.fault ≠ none ∧ whenRunning s r = .next s) := by
  cases h : s.fault <;> simp [h]

/-- A guarded task-context step is the step, or nothing happens. -/
theorem whenTask_cases (s : State) (r : Result) :
    (TaskReady s ∧ whenTask s r = r) ∨ (¬ TaskReady s ∧ whenTask s r = .next s) := by
  cases h : s.fault <;> cases hd : s.drainLeft <;> simp [TaskReady, h, hd]

/-! ### Operands -/

/-- A handle below N_LINES (itself at most 8) names the line of that number. -/
theorem lineOfHandle_of_lt {c : Config} {h : Byte} (h8 : h.toNat < 8) (hn : h.toNat < c.nLines) :
    lineOfHandle c h = some ⟨h.toNat, h8⟩ := by simp [lineOfHandle, h8, hn]

/-- A line found for a handle has the handle's number and exists. -/
theorem lineOfHandle_some {c : Config} {h : Byte} {n : Line} (hn : lineOfHandle c h = some n) :
    n.val = h.toNat ∧ n.val < c.nLines := by
  unfold lineOfHandle at hn
  split at hn
  · split at hn
    · cases hn; simpa
    · cases hn
  · cases hn

/-- The line whose number the handle is, when that line exists. -/
theorem lineOfHandle_of_eq {c : Config} {h : Byte} {n : Line} (e : n.val = h.toNat)
    (l : n.val < c.nLines) : lineOfHandle c h = some n := by
  rw [lineOfHandle_of_lt (by omega) (by omega)]
  exact congrArg some (Fin.ext e.symm)

/-- A handle at or above N_LINES names no line. -/
theorem lineOfHandle_of_le {c : Config} {h : Byte} (l : c.nLines ≤ h.toNat) :
    lineOfHandle c h = none := by
  unfold lineOfHandle
  split_ifs <;> first | rfl | omega

/-- A handle that names no line is at or above N_LINES. -/
theorem lineOfHandle_none {c : Config} (hc : c.nLines ≤ 8) {h : Byte}
    (hn : lineOfHandle c h = none) : c.nLines ≤ h.toNat := by
  unfold lineOfHandle at hn
  split at hn
  · split at hn
    · cases hn
    · omega
  · omega

/-- A mapped pin's line exists, over parameters that meet rule R5. -/
theorem lineOfPin_lt {c : Config} (hc : c.Wf) {p : Pin} {n : Line} (hn : lineOfPin c p = some n) :
    n.val < c.nLines := by
  obtain ⟨-, hr, -, hl, -⟩ := hc
  exact hl _ ((lookup_eq_some_iff_mem hr p n).1 hn)

/-- A mode operand of 0 to 3 asks for the mode whose field is its two low bits. -/
theorem modeOf_armed {m : Byte} (h : m.toNat ≤ 3) :
    ∃ k : Mode, modeOf m = some (some k) ∧ k.bits = m.extractLsb' 0 2 := by
  have : m = 0 ∨ m = 1 ∨ m = 2 ∨ m = 3 := by
    have : m.toNat = 0 ∨ m.toNat = 1 ∨ m.toNat = 2 ∨ m.toNat = 3 := by omega
    rcases this with h | h | h | h <;> [left; (right; left); (right; right; left); (right; right; right)] <;>
      exact BitVec.eq_of_toNat_eq h
  rcases this with rfl | rfl | rfl | rfl
  · exact ⟨.levelLow, by decide⟩
  · exact ⟨.anyEdge, by decide⟩
  · exact ⟨.fallingEdge, by decide⟩
  · exact ⟨.risingEdge, by decide⟩

/-- A mode operand above 4 asks for nothing. -/
theorem modeOf_invalid {m : Byte} (h : 4 < m.toNat) : modeOf m = none := by
  have hne : ∀ k : Byte, k.toNat ≤ 4 → m ≠ k := fun k hk he => by subst he; omega
  have h0 := hne 0 (by decide)
  have h1 := hne 1 (by decide)
  have h2 := hne 2 (by decide)
  have h3 := hne 3 (by decide)
  have h4 := hne 4 (by decide)
  simp only [modeOf, h0, h1, h2, h3, h4, if_false]

/-- The number of an armed mode asks for that mode. -/
@[simp] theorem modeOf_number (k : Mode) : modeOf k.number = some (some k) := by cases k <;> rfl

/-- The two low bits of an armed mode's number are its trigger-mode field. -/
@[simp] theorem extract_number (k : Mode) : k.number.extractLsb' 0 2 = k.bits := by cases k <;> rfl

/-! ### Per-line fields -/

/-- Setting one entry of a per-line array leaves the others. -/
theorem set_sameElsewhere {α : Type} (n : Line) (v : PerLine α) (x : α) :
    SameElsewhere n v (v.set n.val x n.isLt) := by
  intro k hk
  have : n.val ≠ k.val := fun e => hk (Fin.ext e.symm)
  simp [Vector.getElem_set_ne, this]


@[simp] theorem setEn_en_same (n : Line) (v : Bool) (s : State) : (setEn n v s).en[n.val] = v := by
  simp [setEn]

theorem setEn_en_other {n k : Line} (h : k ≠ n) (v : Bool) (s : State) :
    (setEn n v s).en[k.val] = s.en[k.val] := by
  have : n.val ≠ k.val := fun e => h (Fin.ext e.symm)
  simp [setEn, Vector.getElem_set_ne, this]

@[simp] theorem setPf_pf_same (n : Line) (v : Bool) (s : State) : (setPf n v s).pf[n.val] = v := by
  simp [setPf]

theorem setPf_pf_other {n k : Line} (h : k ≠ n) (v : Bool) (s : State) :
    (setPf n v s).pf[k.val] = s.pf[k.val] := by
  have : n.val ≠ k.val := fun e => h (Fin.ext e.symm)
  simp [setPf, Vector.getElem_set_ne, this]

/-- A trigger-mode write leaves the new bits in the line's field. -/
@[simp] theorem setTrig_trig_same (n : Line) (v : BitVec 2) (s : State) :
    (setTrig n v s).trig[n.val] = v := by
  unfold setTrig
  split
  · assumption
  · simp

/-- A trigger-mode write leaves every other line's field as it was. -/
theorem setTrig_trig_other {n k : Line} (h : k ≠ n) (v : BitVec 2) (s : State) :
    (setTrig n v s).trig[k.val] = s.trig[k.val] := by
  have : n.val ≠ k.val := fun e => h (Fin.ext e.symm)
  unfold setTrig
  split
  · rfl
  · simp [Vector.getElem_set_ne, this]

/-- A trigger-mode write leaves every other line's pending flag as it was. -/
theorem setTrig_pf_other {n k : Line} (h : k ≠ n) (v : BitVec 2) (s : State) :
    (setTrig n v s).pf[k.val] = s.pf[k.val] := by
  have : n.val ≠ k.val := fun e => h (Fin.ext e.symm)
  unfold setTrig
  split
  · rfl
  · simp [Vector.getElem_set_ne, this]

/-- A trigger-mode write that changes nothing is no write. -/
theorem setTrig_of_eq {n : Line} {v : BitVec 2} {s : State} (h : s.trig[n.val] = v) :
    setTrig n v s = s := by simp [setTrig, h]

/-- A trigger-mode write keeps a set pending flag, and leaves a clear one clear unless the bits
changed. -/
theorem setTrig_pf_same (n : Line) (v : BitVec 2) (s : State) :
    (s.trig[n.val] = v ∧ (setTrig n v s).pf[n.val] = s.pf[n.val]) ∨
      (s.trig[n.val] ≠ v ∧ (setTrig n v s).pf[n.val] = (s.pf[n.val] || Config.freeBit s.draws)) := by
  by_cases h : s.trig[n.val] = v
  · exact .inl ⟨h, by simp [setTrig, h]⟩
  · exact .inr ⟨h, by simp [setTrig, h]⟩

/-! ### The trigger-mode sequence -/

/-- The sequence leaves the line enabled exactly for an armed mode. -/
@[simp] theorem programLine_en_same (n : Line) (m : Option Mode) (s : State) :
    (programLine n m s).en[n.val] = m.isSome := by
  cases m <;> simp [programLine]

theorem programLine_en_other {n k : Line} (h : k ≠ n) (m : Option Mode) (s : State) :
    (programLine n m s).en[k.val] = s.en[k.val] := by
  cases m
  · simpa [programLine] using setEn_en_other h false s
  · have hs := setEn_en_other h true s
    have hs' := setEn_en_other h false s
    simp_all [programLine, setEn, Vector.getElem_set]

/-- The sequence leaves the mode's bits in the line's field, and 0b00 for a disable. -/
@[simp] theorem programLine_trig_same (n : Line) (m : Option Mode) (s : State) :
    (programLine n m s).trig[n.val] = (m.map Mode.bits).getD 0#2 := by
  cases m <;> simp [programLine]

theorem programLine_trig_other {n k : Line} (h : k ≠ n) (m : Option Mode) (s : State) :
    (programLine n m s).trig[k.val] = s.trig[k.val] := by
  cases m <;> simp [programLine, setTrig_trig_other h]

/-- The sequence leaves the flag of an armed line clear. -/
@[simp] theorem programLine_pf_armed (n : Line) (k : Mode) (s : State) :
    (programLine n (some k) s).pf[n.val] = false := by
  simp [programLine]

theorem programLine_pf_other {n k : Line} (h : k ≠ n) (m : Option Mode) (s : State) :
    (programLine n m s).pf[k.val] = s.pf[k.val] := by
  have : n.val ≠ k.val := fun e => h (Fin.ext e.symm)
  cases m <;> simp [programLine, setTrig_pf_other h, Vector.getElem_set_ne, this]

/-- A disable leaves the flag as it was, unless it cleared set trigger bits: then a draw may set it. -/
theorem programLine_pf_disabled (n : Line) (s : State) :
    (programLine n none s).pf[n.val] =
      (s.pf[n.val] || (s.trig[n.val] != 0b00#2 && Config.freeBit s.draws)) := by
  show (setTrig n 0b00#2 (setEn n false s)).pf[n.val] = _
  rcases setTrig_pf_same n 0b00#2 (setEn n false s) with ⟨h, h'⟩ | ⟨h, h'⟩
  · have h0 : s.trig[n.val] = 0#2 := h
    simp [h', h0]
  · have h0 : (s.trig[n.val] != 0#2) = true := by simpa using h
    simp [h', h0]

/-- The sequence writes the trigger bits, the enable, the flag and the count of draws, nothing else. -/
theorem programLine_frame (n : Line) (m : Option Mode) (s : State) :
    programLine n m s =
      { s with trig := (programLine n m s).trig, en := (programLine n m s).en,
               pf := (programLine n m s).pf, draws := (programLine n m s).draws } := by
  apply State.ext <;> simp

/-- A trigger-mode write writes the trigger bits, the flag and the count of draws, nothing else. -/
theorem setTrig_frame (n : Line) (v : BitVec 2) (s : State) :
    setTrig n v s =
      { s with trig := (setTrig n v s).trig, pf := (setTrig n v s).pf,
               draws := (setTrig n v s).draws } := by
  apply State.ext <;> simp

/-! ### The instance table and the pin levels -/

@[simp] theorem tachOf_putTach_self (oid : Oid) (t : Tach) (s : State) :
    tachOf (putTach oid t s) oid = some t := by simp [tachOf]

theorem tachOf_putTach_ne {oid o : Oid} (h : o ≠ oid) (t : Tach) (s : State) :
    tachOf (putTach oid t s) o = tachOf s o := by simp [tachOf, lookup_keyPut_ne h]

/-- Two states with the same table have the same instances. -/
theorem tachOf_congr {s t : State} (h : t.tach = s.tach) (oid : Oid) : tachOf t oid = tachOf s oid := by
  simp [tachOf, h]

@[simp] theorem levelAt_putLevel_self (p : Pin) (v : Bool) (s : State) :
    levelAt (putLevel p v s) p = v := by simp [levelAt]

theorem levelAt_putLevel_ne {p q : Pin} (h : q ≠ p) (v : Bool) (s : State) :
    levelAt (putLevel p v s) q = levelAt s q := by simp [levelAt, lookup_keyPut_ne h]

/-- Two states with the same levels read the same. -/
theorem levelAt_congr {s t : State} (h : t.level = s.level) (p : Pin) : levelAt t p = levelAt s p := by
  simp [levelAt, h]

/-- In a rising table the enabled oids are those whose instance is enabled. -/
theorem mem_enabledOids {s : State} (h : Rising s.tach) (oid : Oid) :
    oid ∈ enabledOids s ↔ ∃ t, tachOf s oid = some t ∧ t.enabled = true := by
  simp only [enabledOids, List.mem_map, List.mem_filter, tachOf]
  constructor
  · rintro ⟨⟨o, t⟩, ⟨hm, he⟩, rfl⟩
    exact ⟨t, (lookup_eq_some_iff_mem h o t).2 hm, he⟩
  · rintro ⟨t, ht, he⟩
    exact ⟨(oid, t), ⟨(lookup_eq_some_iff_mem h oid t).1 ht, he⟩, rfl⟩

/-- The enabled oids of a rising table rise. -/
theorem enabledOids_pairwise {s : State} (h : Rising s.tach) : (enabledOids s).Pairwise (· < ·) := by
  unfold enabledOids
  exact List.Pairwise.map _ (fun _ _ hab => hab) (List.Pairwise.filter _ h)

/-! ### Handlers -/

/-- tach_count adds one to the owner's instance, or has no instance to count for. -/
theorem tachCount_cases (owner : Option Oid) (s : State) :
    (∃ oid t, owner = some oid ∧ tachOf s oid = some t ∧
        tachCount owner s = .ok (putTach oid { t with pulseCount := t.pulseCount + 1 } s)) ∨
      ((∀ oid, owner = some oid → tachOf s oid = none) ∧ tachCount owner s = .error .unknownOid) := by
  cases owner with
  | none => exact .inr ⟨by simp, rfl⟩
  | some oid =>
    cases h : tachOf s oid with
    | none => exact .inr ⟨by simp [h], by simp [tachCount, h]⟩
    | some t => exact .inl ⟨oid, t, rfl, h, by simp [tachCount, h]⟩

/-- The flags of two lines are cleared in either order. -/
theorem setPf_comm {n k : Line} (h : n ≠ k) (s : State) :
    setPf n false (setPf k false s) = setPf k false (setPf n false s) := by
  unfold setPf
  congr 1
  exact Vector.set_comm _ _ (fun e => h (Fin.ext e.symm))

/-- Whether a line requests depends on its own fields, the pin levels and the pin map. -/
theorem requests_congr {s t : State} {n : Line} (hen : t.en[n] = s.en[n])
    (htrig : t.trig[n] = s.trig[n]) (hpf : t.pf[n] = s.pf[n]) (hlevel : t.level = s.level)
    (hconfig : t.config = s.config) : requests t n = requests s n := by
  simp only [requests, hen, htrig, hpf, pinLow, levelAt, hlevel, hconfig]

end Sys2Proof.Machine
end

