-- ==== Sys2Proof/Laws/Exec.lean ====
section
/-! SUPPORT. What an operation can do, said once: every invariant and every statement of the kind
"only these operations" follows from `exec_cases`. -/

namespace Sys2Proof.Machine

/-- A task-context step leaves the state as it is, or is taken. -/
theorem whenTask_inv {s t : State} {r : Result} (h : whenTask s r = .next t) :
    t = s ∨ (s.fault = none ∧ s.drainLeft = none ∧ r = .next t) := by
  rcases whenTask_cases s r with ⟨⟨h1, h2⟩, hh⟩ | ⟨_, hh⟩ <;> rw [hh] at h
  · exact .inr ⟨h1, h2, h⟩
  · exact .inl (by simpa using h.symm)
/-- A guarded step leaves the state as it is, or is taken. -/
theorem whenRunning_inv {s t : State} {r : Result} (h : whenRunning s r = .next t) :
    t = s ∨ (s.fault = none ∧ r = .next t) := by
  rcases whenRunning_cases s r with ⟨h1, hh⟩ | ⟨_, hh⟩ <;> rw [hh] at h
  · exact .inr ⟨h1, h⟩
  · exact .inl (by simpa using h.symm)
/-- Settling gives what was computed, or the fatal error. -/
theorem settle_inv {s t : State} {f : Frame} {r : Except FaultCode State}
    (h : settle f s r = .next t) : r = .ok t ∨ ∃ c, t = raiseFatal c f s := by
  rcases r with c | u <;> simp at h
  · exact .inr ⟨c, h.symm⟩
  · exact .inl (by rw [h])
/-- Everything an operation can do: one case per effect a rule gives it, with the conditions that hold
where it has that effect. The first case is a step that is not taken or has no effect, the second a
fatal error. -/
inductive ExecCases (i : Instr) (s t : State) : Prop
  | same (ht : t = s)
  | fatal (c : FaultCode) (f : Frame) (d : Nat)
      (ht : t = { s with fault := some (c, f), draws := d })
  | config (o : Oid) (p : Pin) (n : Line) (hi : i = .configTachometer o p) (hf : s.fault = none)
      (hd : s.drainLeft = none) (hnew : tachOf s o = none) (hp : lineOfPin s.config p = some n)
      (hroom : s.tach.length ≠ s.config.maxTach)
      (ht : t = bindLine n (some o) .tachCount (putTach o (newTach n) s))
  | update (c r : Word) (hi : i = .updateTachTimer c r) (hf : s.fault = none)
      (hd : s.drainLeft = none) (ht : t = { s with ttActive := r != 0, ttWake := c, ttRest := r })
  | mode (o : Oid) (m : Byte) (a : Tach) (req : Option Mode) (b : Tach)
      (hi : i = .setTachIrqState o m) (hf : s.fault = none) (hd : s.drainLeft = none)
      (ha : tachOf s o = some a) (hline : b.line = a.line) (hcount : b.pulseCount = a.pulseCount)
      (hmode : b.enabled = b.activeMode.isSome) (hl : a.line.val < s.config.nLines)
      (ht : t = programLine a.line req (putTach o b s))
  | register (o : Oid) (hs : Byte) (p : Pin) (h : Handler) (n : Line)
      (hi : i = .lineRegister o hs p) (hf : s.fault = none) (hd : s.drainLeft = none)
      (hp : lineOfPin s.config p = some n) (ht : t = bindLine n (some o) h s)
  | trigger (l m : Byte) (n : Line) (req : Option Mode) (hi : i = .lineSetTriggerMode l m)
      (hf : s.fault = none) (hd : s.drainLeft = none) (hl : n.val < s.config.nLines)
      (ht : t = programLine n req s)
  | unregister (l : Byte) (n : Line) (hi : i = .lineUnregister l) (hf : s.fault = none)
      (hd : s.drainLeft = none) (hl : n.val < s.config.nLines)
      (ht : t = bindLine n none .noop (programLine n none s))
  | pin (v : Byte) (p : Pin) (n : Line) (b : Bool) (hi : i = .pinChange v p) (hf : s.fault = none)
      (hp : lineOfPin s.config p = some n)
      (ht : t = setPf n true (putLevel p b s) ∨ t = putLevel p b s)
  | tick (hi : i = .clockTick) (hf : s.fault = none) (ht : t = { s with clock := s.clock + 1 })
  | isrNoop (l : Byte) (n : Line) (hi : i = .lineIsr l) (hf : s.fault = none)
      (hl : n.val < s.config.nLines) (hn : lineOfHandle s.config l = some n)
      (hr : requests s n = true) (hh : s.handler[n] = .noop) (ht : t = setPf n false s)
  | isrCount (l : Byte) (n : Line) (o : Oid) (a : Tach) (hi : i = .lineIsr l) (hf : s.fault = none)
      (hl : n.val < s.config.nLines) (hn : lineOfHandle s.config l = some n)
      (hr : requests s n = true) (hh : s.handler[n] = .tachCount) (ho : s.owner[n] = some o)
      (ha : tachOf s o = some a)
      (ht : t = putTach o { a with pulseCount := a.pulseCount + 1 } (setPf n false s))
  | expiry (d : Nat) (hi : i = .timerIsr) (hf : s.fault = none) (hact : s.ttActive = true)
      (hdue : due s.clock s.ttWake = true)
      (hlate : (mayFaultLate s && Config.freeBit s.draws) = false)
      (ht : t = expire { s with draws := d })
  | drainTask (hi : i = .drainTask) (hf : s.fault = none) (hd : s.drainLeft = none)
      (ht : t = { s with wakeFlag := false, drainLeft := drainOf (enabledOids s) })
  | drainStep (o : Oid) (left : List Oid) (a : Tach) (hi : i = .drainStep o) (hf : s.fault = none)
      (hd : s.drainLeft = some left) (hm : o ∈ left) (ha : tachOf s o = some a)
      (ht : t = emit (encode (.tachResponse o a.pulseCount))
        { putTach o { a with pulseCount := 0 } s with
          drainLeft := drainOf (left.filter (fun x => x != o)) })
  | response (o : Oid) (c : Word) (hi : i = .tachResponse o c) (hf : s.fault = none)
      (ht : t = emit (encode (.tachResponse o c)) s)

/-- A fatal error is the second case. -/
theorem execCases_of_fatal {i : Instr} {s t : State} {c : FaultCode} {f : Frame}
    (h : t = raiseFatal c f s) : ExecCases i s t := .fatal c f s.draws h

/-- What an operation can do when it answers a next state. -/
theorem exec_cases (i : Instr) (s t : State) (h : exec i s = .next t) : ExecCases i s t := by
  cases i with
  | configTachometer o p =>
    rcases whenTask_inv h with h | ⟨h1, h2, h⟩
    · exact .same h
    rcases settle_inv h with h | ⟨c, h⟩
    · split at h <;> [cases h; split at h <;> [cases h; split at h <;> [cases h; skip]]]
      rename_i ha _ n hp hl
      simp [lineRegister, hp, Except.map] at h
      exact .config o p n rfl h1 h2 ha hp hl h.symm
    · exact execCases_of_fatal h
  | updateTachTimer a b =>
    rcases whenTask_inv h with h | ⟨h1, h2, h⟩
    · exact .same h
    · exact .update a b rfl h1 h2 (by simpa using h.symm)
  | setTachIrqState o m =>
    rcases whenTask_inv h with h | ⟨h1, h2, h⟩
    · exact .same h
    rcases settle_inv h with h | ⟨c, h⟩
    · split at h <;> [cases h; split at h <;> [cases h; skip]]
      rename_i a ha _ req hm
      unfold applyMode armLine at h
      repeat' split at h
      all_goals simp at h
      · rename_i hh; exact .mode o m a none
          { a with enabled := false, activeMode := none } rfl h1 h2 ha rfl rfl rfl (of_decide_eq_true hh) h.symm
      · exact .same h.symm
      · rename_i k _ hh; exact .mode o m a (some k)
          { a with enabled := true, activeMode := some k } rfl h1 h2 ha rfl rfl rfl (of_decide_eq_true hh) h.symm
      · exact .same h.symm
    · exact execCases_of_fatal h
  | lineRegister a b d =>
    simp only [exec, execLineRegister] at h
    split at h
    · rcases whenRunning_inv h with h | ⟨h1, h⟩
      · exact .same h
      · exact execCases_of_fatal (by simpa using h.symm)
    · rename_i hd _
      rcases whenTask_inv h with h | ⟨h1, h2, h⟩
      · exact .same h
      rcases settle_inv h with h | ⟨c, h⟩
      · simp only [lineRegister] at h
        split at h <;> simp [Except.map] at h
        rename_i n hn
        exact .register a b d hd n rfl h1 h2 hn h.symm
      · exact execCases_of_fatal h
  | lineSetTriggerMode l m =>
    rcases whenTask_inv h with h | ⟨h1, h2, h⟩
    · exact .same h
    rcases settle_inv h with h | ⟨c, h⟩
    · split at h <;> [cases h; split at h <;> [cases h; skip]]
      rename_i n hn _ req hm
      cases h
      exact .trigger l m n req rfl h1 h2 (lineOfHandle_some hn).2 rfl
    · exact execCases_of_fatal h
  | lineUnregister l =>
    rcases whenTask_inv h with h | ⟨h1, h2, h⟩
    · exact .same h
    rcases settle_inv h with h | ⟨c, h⟩
    · split at h <;> [cases h; skip]
      rename_i n hn
      cases h
      exact .unregister l n rfl h1 h2 (lineOfHandle_some hn).2 rfl
    · exact execCases_of_fatal h
  | pinChange v p =>
    simp only [exec, execPinChange] at h
    split at h
    · rcases whenRunning_inv h with h | ⟨h1, h⟩
      · exact .same h
      · exact execCases_of_fatal (by simpa using h.symm)
    · rename_i b _
      rcases whenRunning_inv h with h | ⟨h1, h⟩
      · exact .same h
      · simp at h
        unfold pinChanges at h
        split at h
        · exact .same h.symm
        · rename_i n hn
          split at h
          · exact .same h.symm
          · split at h
            · exact .pin v p n b rfl h1 hn (.inl h.symm)
            · exact .pin v p n b rfl h1 hn (.inr h.symm)
  | clockTick =>
    rcases whenRunning_inv h with h | ⟨h1, h⟩
    · exact .same h
    · exact .tick rfl h1 (by simpa using h.symm)
  | lineIsr l =>
    rcases whenRunning_inv h with h | ⟨h1, h⟩
    · exact .same h
    · split at h
      · exact execCases_of_fatal (by simpa using h.symm)
      · rename_i n hn
        split at h
        · rename_i hr
          rcases settle_inv h with h | ⟨c, h⟩
          · simp only [serviceLine] at h
            split at h
            · rename_i hh; cases h; exact .isrNoop l n rfl h1 (lineOfHandle_some hn).2 hn hr hh rfl
            · rename_i hh
              rcases tachCount_cases s.owner[n] (setPf n false s) with ⟨o, a, ho, ha, hx⟩ | ⟨_, hx⟩ <;> rw [hx] at h <;> cases h
              exact .isrCount l n o a rfl h1 (lineOfHandle_some hn).2 hn hr hh ho ha rfl
          · exact execCases_of_fatal h
        · exact .same (by simpa using h.symm)
  | timerIsr =>
    rcases whenRunning_inv h with h | ⟨h1, h⟩
    · exact .same h
    · split at h
      · rename_i hc
        simp at hc
        split at h
        · split at h
          · simp at h; exact .fatal _ _ (s.draws+1) h.symm
          · rename_i hb; simp at h; exact .expiry _ rfl h1 hc.1 hc.2 (by simp [hb]) h.symm
        · rename_i hm; simp at h; exact .expiry s.draws rfl h1 hc.1 hc.2 (by simp [hm]) h.symm
      · exact .same (by simpa using h.symm)
  | drainTask =>
    rcases whenTask_inv h with h | ⟨h1, h2, h⟩
    · exact .same h
    · split at h <;> simp at h
      · exact .drainTask rfl h1 h2 h.symm
      · exact .same h.symm
  | drainStep o =>
    rcases whenRunning_inv h with h | ⟨h1, h⟩
    · exact .same h
    · split at h
      · exact .same (by simpa using h.symm)
      · rename_i left hd
        split at h
        · rename_i hm
          split at h <;> simp at h
          · exact .same h.symm
          · rename_i a ha
            exact .drainStep o left a rfl h1 hd (by simpa using hm) ha h.symm
        · exact .same (by simpa using h.symm)
  | tachResponse o c =>
    rcases whenRunning_inv h with h | ⟨h1, h⟩
    · exact .same h
    · exact .response o c rfl h1 (by simpa using h.symm)

/-- What a service routine that did not fault did: nothing while its line does not request, else it
cleared the flag and, for a TachCount line, counted for the owner's instance. -/
theorem lineIsr_inv {s t : State} {a : Byte} {n : Line} (hn : n.val = a.toNat) (hf : t.fault = none)
    (h : exec (.lineIsr a) s = .next t) :
    s.fault = none ∧ n.val < s.config.nLines ∧
      ((requests s n = false ∧ t = s) ∨
        (requests s n = true ∧
          ((s.handler[n] = .noop ∧ t = setPf n false s) ∨
            ∃ oid c, s.handler[n] = .tachCount ∧ s.owner[n] = some oid ∧ tachOf s oid = some c ∧
              t = putTach oid { c with pulseCount := c.pulseCount + 1 } (setPf n false s)))) := by
  have hs : s.fault = none := by
    by_contra hx
    obtain ⟨x, hx⟩ := Option.ne_none_iff_exists'.1 hx
    simp [exec, execLineIsr, whenRunning_of_halted hx] at h
    rw [← h, hx] at hf; cases hf
  refine ⟨hs, ?_⟩
  simp only [exec, execLineIsr, whenRunning_of_running hs] at h
  by_cases hl : a.toNat < s.config.nLines
  · refine ⟨by omega, ?_⟩
    rw [lineOfHandle_of_eq hn (by omega)] at h
    simp only [] at h
    cases hr : requests s n
    · rw [hr] at h; simp at h; exact .inl ⟨rfl, h.symm⟩
    · rw [hr] at h; simp only [if_true] at h
      refine .inr ⟨rfl, ?_⟩
      unfold serviceLine at h
      cases hh : s.handler[n]
      · rw [hh] at h; simp at h; exact .inl ⟨rfl, h.symm⟩
      · rw [hh] at h; simp only [tachCount] at h
        cases ho : s.owner[n] with
        | none => rw [ho] at h; simp [raiseFatal] at h; subst h; simp at hf
        | some oid =>
          rw [ho] at h; simp only [] at h
          rw [tachOf_congr (show (setPf n false s).tach = s.tach from rfl)] at h
          cases hc : tachOf s oid with
          | none => rw [hc] at h; simp [raiseFatal] at h; subst h; simp at hf
          | some c => rw [hc] at h; simp at h; exact .inr ⟨oid, c, rfl, rfl, hc, h.symm⟩
  · rw [lineOfHandle_of_le (by omega)] at h
    simp [raiseFatal] at h; subst h; simp at hf

/-- What a timer_isr that did not fault did: nothing while the timer is inactive or not due, else an
expiry, after a draw that let it pass where the variant may fault. -/
theorem timerIsr_inv {s t : State} (hf : t.fault = none) (h : exec .timerIsr s = .next t) :
    s.fault = none ∧
      ((¬ (s.ttActive && due s.clock s.ttWake) = true ∧ t = s) ∨
        ((s.ttActive && due s.clock s.ttWake) = true ∧
          ((mayFaultLate s = true ∧ Config.freeBit s.draws = false ∧
              t = expire { s with draws := s.draws + 1 }) ∨
            (mayFaultLate s = false ∧ t = expire s)))) := by
  have hs : s.fault = none := by
    by_contra hx
    obtain ⟨x, hx⟩ := Option.ne_none_iff_exists'.1 hx
    simp [exec, execTimerIsr, whenRunning_of_halted hx] at h
    rw [← h, hx] at hf
    cases hf
  refine ⟨hs, ?_⟩
  simp only [exec, execTimerIsr, whenRunning_of_running hs] at h
  split at h
  · rename_i hdue
    refine .inr ⟨hdue, ?_⟩
    split at h
    · split at h
      · cases h
        simp [raiseFatal] at hf
      · cases h
        simp_all
    · cases h
      simp_all
  · rename_i hdue
    cases h
    exact .inl ⟨hdue, rfl⟩

end Sys2Proof.Machine
end

