-- ==== Sys2Proof/Laws/PerInstr.lean ====
section
/-! SUPPORT. Statements made once per operation: the opcode field of each operation's frame is the
opcode of 30_encoding.md rule R85 (rule R81 puts it in bits 7:0). -/

namespace Sys2Proof.Laws.OpcodeField

/-- The frame of the operation carries the operation's opcode. -/
def Statement (i : Instr) : Prop := Frame.op (encode i) = i.opcode

theorem configTachometer (oid : Oid) (pin : Pin) : Statement (.configTachometer oid pin) :=
  op_packFrame _ _ _ _ _

theorem updateTachTimer (clock : Word) (restTicks : Word) : Statement (.updateTachTimer clock restTicks) :=
  op_packFrame _ _ _ _ _

theorem setTachIrqState (oid : Oid) (mode : Byte) : Statement (.setTachIrqState oid mode) :=
  op_packFrame _ _ _ _ _

theorem lineRegister (owner : Oid) (hsel : Byte) (pin : Pin) : Statement (.lineRegister owner hsel pin) :=
  op_packFrame _ _ _ _ _

theorem lineSetTriggerMode (line : Byte) (mode : Byte) : Statement (.lineSetTriggerMode line mode) :=
  op_packFrame _ _ _ _ _

theorem lineUnregister (line : Byte) : Statement (.lineUnregister line) :=
  op_packFrame _ _ _ _ _

theorem pinChange (level : Byte) (pin : Pin) : Statement (.pinChange level pin) :=
  op_packFrame _ _ _ _ _

theorem clockTick : Statement .clockTick :=
  op_packFrame _ _ _ _ _

theorem lineIsr (line : Byte) : Statement (.lineIsr line) :=
  op_packFrame _ _ _ _ _

theorem timerIsr : Statement .timerIsr :=
  op_packFrame _ _ _ _ _

theorem drainTask : Statement .drainTask :=
  op_packFrame _ _ _ _ _

theorem drainStep (oid : Oid) : Statement (.drainStep oid) :=
  op_packFrame _ _ _ _ _

theorem tachResponse (oid : Oid) (pulseCount : Word) : Statement (.tachResponse oid pulseCount) :=
  op_packFrame _ _ _ _ _

end Sys2Proof.Laws.OpcodeField
end

