-- ==== Sys2Proof/Laws/Registers.lean ====
section
/-! SUPPORT. The register space: the bits of EICR, EIMSK and EIFR, and what a write of each does. -/

namespace Sys2Proof.Machine

/-- The lines the variant has are those below `N_LINES`. -/
theorem mem_lines {c : Config} {n : Line} : n ∈ c.lines ↔ n.val < c.nLines := by
  unfold Config.lines
  rw [List.mem_filter]
  have : n ∈ allLines := by revert n; decide
  simp [this]

/-- Each line is listed once. -/
theorem nodup_lines (c : Config) : c.lines.Nodup := by
  unfold Config.lines; exact List.Nodup.filter _ (by decide)

/-- A bit of a register is set when some line sets it. -/
theorem orLines_bit {w} (c : Config) (g : Line → BitVec w) (b : Nat) : (orLines c g).getLsbD b =
    c.lines.any (fun n => (g n).getLsbD b) := by
  unfold orLines
  have : ∀ (l : List Line) (acc : BitVec w), (l.foldl (fun acc n => acc ||| g n) acc).getLsbD b =
      (acc.getLsbD b || l.any (fun n => (g n).getLsbD b)) := by
    intro l; induction l with
    | nil => simp
    | cons a r ih => intro acc; simp [ih, Bool.or_assoc]
  simpa using this c.lines 0#w

/-- The one bit of `bitAt`. -/
theorem bitAt_bit {w v b k} (hk : b < w) : (bitAt w v b).getLsbD k = (v && k == b) := by
  unfold bitAt
  cases v
  · simp
  · rw [if_pos rfl, BitVec.getLsbD_shiftLeft, BitVec.getLsbD_one]
    by_cases h : k = b
    · subst h; simp [hk]; try omega
    · rw [beq_false_of_ne h, Bool.and_false, Bool.eq_false_iff]
      simp only [ne_eq, Bool.and_eq_true, Bool.not_eq_true', decide_eq_true_eq,
          decide_eq_false_iff_not]
      omega

/-- Bit n of EIMSK is the enable of line n. -/
theorem eimsk_bit (s : State) (n : Line) (h : n.val < s.config.nLines) :
    (eimsk s).getLsbD n.val = s.en[n] := by
  unfold eimsk
  rw [orLines_bit, Bool.eq_iff_iff, List.any_eq_true]
  simp only [bitAt_bit (Fin.isLt _), Bool.and_eq_true, beq_iff_eq]
  constructor
  · rintro ⟨k, _, hk, e⟩; rw [Fin.ext e.symm] at hk; exact hk
  · intro hk; exact ⟨n, mem_lines.2 h, hk, rfl⟩

/-- Bit n of EIFR is the flag of line n. -/
theorem eifr_bit (s : State) (n : Line) (h : n.val < s.config.nLines) : (eifr s).getLsbD n.val =
    s.pf[n] := by
  unfold eifr
  rw [orLines_bit, Bool.eq_iff_iff, List.any_eq_true]
  simp only [bitAt_bit (Fin.isLt _), Bool.and_eq_true, beq_iff_eq]
  constructor
  · rintro ⟨k, _, hk, e⟩; rw [Fin.ext e.symm] at hk; exact hk
  · intro hk; exact ⟨n, mem_lines.2 h, hk, rfl⟩

/-- A bit of EICR, as the lines that put a bit there. -/
theorem eicr_bit (s : State) (k : Nat) : (eicr s).getLsbD k =
    s.config.lines.any (fun n => (s.trig[n].getLsbD 0 && k ==
        s.config.modeBit0[n].val) || (s.trig[n].getLsbD 1 && k == s.config.modeBit1[n].val)) := by
  unfold eicr
  rw [orLines_bit]
  congr 1; funext n
  rw [BitVec.getLsbD_or, bitAt_bit (Fin.isLt _), bitAt_bit (Fin.isLt _)]

/-- No two fields of EICR share a position. -/
theorem modeBits_inj {c : Config} (h : c.modeBits.Nodup) {n k : Line} (hn :
    n.val < c.nLines) (hk : k.val < c.nLines) :
   (c.modeBit0[n] = c.modeBit0[k] → n = k) ∧ (c.modeBit1[n] = c.modeBit1[k] → n = k) ∧
       c.modeBit0[n] ≠ c.modeBit1[k] := by
  unfold Config.modeBits at h
  rw [List.nodup_append] at h
  obtain ⟨h0, h1, h2⟩ := h
  refine ⟨fun e => List.inj_on_of_nodup_map h0 (mem_lines.2 hn) (mem_lines.2 hk) e,
      fun e => List.inj_on_of_nodup_map h1 (mem_lines.2 hn) (mem_lines.2 hk) e, fun e => ?_⟩
  exact h2 _ (List.mem_map.2 ⟨n, mem_lines.2 hn, rfl⟩) _ (List.mem_map.2 ⟨k, mem_lines.2 hk, rfl⟩) e

/-- EICR holds each line's field at its two positions. -/
theorem eicr_bits (s : State) (hw : s.config.modeBits.Nodup) (n : Line) (h :
    n.val < s.config.nLines) :
    (eicr s).getLsbD s.config.modeBit0[n].val = s.trig[n].getLsbD 0 ∧
    (eicr s).getLsbD s.config.modeBit1[n].val = s.trig[n].getLsbD 1 := by
  constructor
  all_goals
    rw [eicr_bit, Bool.eq_iff_iff, List.any_eq_true]
    simp only [Bool.or_eq_true, Bool.and_eq_true, beq_iff_eq]
    constructor
    · rintro ⟨k, hk, ⟨h1, e⟩ | ⟨h1, e⟩⟩
      · have hb := modeBits_inj hw h (mem_lines.1 hk)
        have hb' := modeBits_inj hw (mem_lines.1 hk) h
        first
        | (rw [hb.1 (Fin.ext e)]; exact h1)
        | exact absurd (Fin.ext e.symm) hb'.2.2
      · have hb := modeBits_inj hw h (mem_lines.1 hk)
        first
        | (rw [hb.2.1 (Fin.ext e)]; exact h1)
        | exact absurd (Fin.ext e) hb.2.2
    · intro h1; first | exact ⟨n, mem_lines.2 h, .inl ⟨h1, rfl⟩⟩ | exact ⟨n, mem_lines.2 h,
        .inr ⟨h1, rfl⟩⟩

/-- The field a value of EICR holds for a line. -/
theorem trigField_bit (c v n) : (trigField c v n).getLsbD 0 = v.getLsbD c.modeBit0[n].val ∧
    (trigField c v n).getLsbD 1 = v.getLsbD c.modeBit1[n].val := by
  unfold trigField
  simp only [BitVec.getLsbD_or, bitAt_bit (show 0 < 2 by decide), bitAt_bit (show 1 < 2 by decide)]
  simp

/-- Two trigger modes with the same bits are the same. -/
theorem trig_ext {a b : BitVec 2} (h0 : a.getLsbD 0 = b.getLsbD 0) (h1 : a.getLsbD 1 =
    b.getLsbD 1) : a = b := by
  apply BitVec.eq_of_getLsbD_eq
  intro i hi
  interval_cases i <;> assumption

/-- A write of EICR writes the trigger modes, the flags and the count of draws, and nothing else. -/
theorem foldSetTrig_frame (l : List Line) (g : Line → BitVec 2) (s : State) :
    (l.foldl (fun t n => setTrig n (g n) t) s) =
        { s with trig := (l.foldl (fun t n => setTrig n (g n) t) s).trig,
                 pf := (l.foldl (fun t n => setTrig n (g n) t) s).pf,
                 draws := (l.foldl (fun t n => setTrig n (g n) t) s).draws } := by
  induction l generalizing s with
  | nil => rfl
  | cons a r ih => simp only [List.foldl_cons]; rw [ih]; apply State.ext <;> simp

/-- A write of trigger modes gives each line written its new mode. -/
theorem foldSetTrig_trig (l : List Line) (hn : l.Nodup) (g : Line → BitVec 2) (s : State) (k :
    Line) : (l.foldl (fun t n => setTrig n (g n) t) s).trig[k] =
        if k ∈ l then g k else s.trig[k] := by
  induction l generalizing s with
  | nil => simp
  | cons a r ih =>
    rw [List.nodup_cons] at hn
    simp only [List.foldl_cons]; rw [ih hn.2]
    by_cases e : k = a
    · subst e; simp [hn.1]
    · have := setTrig_trig_other e (g a) s
      simp [e]; simp [this]

/-- A write of trigger modes clears no flag, and sets none of a line whose mode stays. -/
theorem foldSetTrig_pf (l : List Line) (hn : l.Nodup) (g : Line → BitVec 2) (s : State) (k : Line) :
  (s.pf[k] = true → (l.foldl (fun t n => setTrig n (g n) t) s).pf[k] = true) ∧
      ((k ∉ l ∨ g k = s.trig[k]) → (l.foldl (fun t n => setTrig n (g n) t) s).pf[k] = s.pf[k]) := by
  induction l generalizing s with
  | nil => simp
  | cons a r ih =>
    rw [List.nodup_cons] at hn
    simp only [List.foldl_cons]
    have ih' := ih hn.2 (setTrig a (g a) s)
    by_cases e : k = a
    · subst e
      rcases setTrig_pf_same k (g k) s with ⟨h1, h2⟩ | ⟨h1, h2⟩
      · have h2' : (setTrig k (g k) s).pf[k] = s.pf[k] := h2
        rw [h2'] at ih'
        refine ⟨ih'.1, fun _ => ih'.2 (.inl hn.1)⟩
      · have h2' : (setTrig k (g k) s).pf[k] = (s.pf[k] || Config.freeBit s.draws) := h2
        rw [h2'] at ih'
        refine ⟨fun h => ih'.1 (by rw [h]; rfl), ?_⟩
        rintro (h | h)
        · simp at h
        · exact absurd h.symm h1
    · have h1 : (setTrig a (g a) s).trig[k] = s.trig[k] := setTrig_trig_other e (g a) s
      have h2 : (setTrig a (g a) s).pf[k] = s.pf[k] := setTrig_pf_other e (g a) s
      rw [h1, h2] at ih'
      refine ⟨ih'.1, ?_⟩
      rintro (h | h)
      · exact ih'.2 (.inl (by simp at h; exact h.2))
      · exact ih'.2 (.inr h)

/-- The three registers read 0 after reset. -/
theorem registers_resetWith (c clock high) : eicr (State.resetWith c clock high) = 0 ∧
    eimsk (State.resetWith c clock high) = 0 ∧ eifr (State.resetWith c clock high) = 0 := by
  refine ⟨?_, ?_, ?_⟩ <;> apply BitVec.eq_of_getLsbD_eq <;> intro i hi
  · simp [eicr_bit, State.resetWith]
  · rw [eimsk, orLines_bit]; simp [State.resetWith, bitAt]
  · rw [eifr, orLines_bit]; simp [State.resetWith, bitAt]

/-- A write of enables gives each line written its new enable. -/
theorem foldSetEn_en (l : List Line) (hn : l.Nodup) (g : Line → Bool) (s : State) (k : Line) :
    (l.foldl (fun t n => setEn n (g n) t) s).en[k] = if k ∈ l then g k else s.en[k] := by
  induction l generalizing s with
  | nil => simp
  | cons a r ih =>
    rw [List.nodup_cons] at hn
    simp only [List.foldl_cons]; rw [ih hn.2]
    by_cases e : k = a
    · subst e; simp [hn.1]
    · have : (setEn a (g a) s).en[k] = s.en[k] := setEn_en_other e (g a) s
      rw [this]; simp [e]

/-- A write of enables writes nothing else. -/
theorem foldSetEn_frame (l : List Line) (g : Line → Bool) (s : State) :
    (l.foldl (fun t n => setEn n (g n) t) s) =
        { s with en := (l.foldl (fun t n => setEn n (g n) t) s).en } := by
  induction l generalizing s with
  | nil => rfl
  | cons a r ih => simp only [List.foldl_cons]; rw [ih]; apply State.ext <;> simp

/-- A write of EIFR clears the flags whose bits are 1. -/
theorem foldClearPf_pf (l : List Line) (hn : l.Nodup) (g : Line → Bool) (s : State) (k : Line) :
    (l.foldl (fun t n => if g n then setPf n false t else t) s).pf[k] =
        if k ∈ l then (s.pf[k] && !g k) else s.pf[k] := by
  induction l generalizing s with
  | nil => simp
  | cons a r ih =>
    rw [List.nodup_cons] at hn
    simp only [List.foldl_cons]; rw [ih hn.2]
    by_cases e : k = a
    · subst e; cases h : g k <;> simp [hn.1]
    · have : (setPf a false s).pf[k] = s.pf[k] := setPf_pf_other e false s
      cases h : g a
      · simp [e]
      · simp only [if_true]; rw [this]; simp [e]

/-- A write of EIFR writes nothing but flags. -/
theorem foldClearPf_frame (l : List Line) (g : Line → Bool) (s : State) :
    (l.foldl (fun t n => if g n then setPf n false t else t) s) =
        { s with pf := (l.foldl (fun t n => if g n then setPf n false t else t) s).pf } := by
  induction l generalizing s with
  | nil => rfl
  | cons a r ih => simp only [List.foldl_cons]; rw [ih]; split <;> (apply State.ext <;> simp)

/-- A fold depends on its step at the members only. -/
theorem foldl_congr_mem {α β} (l : List α) (f g : β → α → β) (s : β) (h : ∀ a ∈ l, ∀ b, f b a =
    g b a) : l.foldl f s = l.foldl g s := by
  induction l generalizing s with
  | nil => rfl
  | cons a r ih => simp only [List.foldl_cons]; rw [h a (by simp)]; exact ih _ (fun x hx => h x (by simp [hx]))

/-- A write of EICR that changes at most line n's field is the write of that field. -/
theorem writeEicr_one (s : State) (n : Line) (x : BitVec 2) (v : BitVec 16) (hn :
    n.val < s.config.nLines)
   (h : ∀ k : Line, k.val < s.config.nLines → trigField s.config v k = if k =
       n then x else s.trig[k]) : writeEicr v s = setTrig n x s := by
  unfold writeEicr
  have : ∀ (l : List Line) (t : State), l.Nodup → (∀ k ∈ l, k.val < s.config.nLines) →
      (∀ k ∈ l, k ≠ n → t.trig[k] = s.trig[k]) →
     l.foldl (fun t n => setTrig n (trigField s.config v n) t) t =
         if n ∈ l then setTrig n x t else t := by
    intro l; induction l with
    | nil => simp
    | cons a r ih =>
      intro t hnd hl ht
      rw [List.nodup_cons] at hnd
      simp only [List.foldl_cons]
      rw [h a (hl a (by simp))]
      by_cases e : a = n
      · subst e
        rw [if_pos rfl, ih _ hnd.2 (fun k hk => hl k (by simp [hk]))]
        · simp [hnd.1]
        · intro k hk hne
          rw [show (setTrig a x t).trig[k] = t.trig[k] from setTrig_trig_other hne _ _]
          exact ht k (by simp [hk]) hne
      · rw [if_neg e, setTrig_of_eq (ht a (by simp) e),
          ih _ hnd.2 (fun k hk => hl k (by simp [hk])) (fun k hk => ht k (by simp [hk]))]
        simp [Ne.symm e]
  rw [this _ _ (nodup_lines _) (fun k hk => mem_lines.1 hk) (fun _ _ _ => rfl),
      if_pos (mem_lines.2 hn)]

/-- A write of EIMSK that changes at most line n's bit is the write of that enable. -/
theorem writeEimsk_one (s : State) (n : Line) (x : Bool) (v : Byte) (hn : n.val < s.config.nLines)
   (h : ∀ k : Line, k.val < s.config.nLines → v.getLsbD k.val = if k = n then x else s.en[k]) :
       writeEimsk v s = setEn n x s := by
  unfold writeEimsk
  rw [foldSetEn_frame]
  have : (s.config.lines.foldl (fun t n => setEn n (v.getLsbD n.val) t) s).en =
      s.en.set n.val x n.isLt := by
    apply Vector.ext
    intro i hi
    have hh := foldSetEn_en s.config.lines (nodup_lines _) (fun n => v.getLsbD n.val) s ⟨i, hi⟩
    simp only [Fin.getElem_fin] at hh
    rw [hh]
    simp only [mem_lines]
    rw [Vector.getElem_set]
    by_cases e : n.val = i
    · subst e
      rw [if_pos hn, if_pos rfl]
      have := h n hn
      simpa using this
    · rw [if_neg e]
      split
      · rename_i hl
        have := h ⟨i, hi⟩ hl
        rw [if_neg (fun hh => e (congrArg Fin.val hh).symm)] at this
        simpa using this
      · rfl
  rw [this]; rfl

/-- A write of EIFR with the one bit n clears line n's flag. -/
theorem writeEifr_one (s : State) (n : Line) (v : Byte) (hn : n.val < s.config.nLines)
   (h : ∀ k : Line, v.getLsbD k.val = decide (k = n)) : writeEifr v s = setPf n false s := by
  unfold writeEifr
  rw [foldClearPf_frame]
  have : (s.config.lines.foldl (fun t n => if v.getLsbD n.val then setPf n false t else t) s).pf = s.pf.set n.val false n.isLt := by
    apply Vector.ext
    intro i hi
    have hh := foldClearPf_pf s.config.lines (nodup_lines _) (fun n => v.getLsbD n.val) s ⟨i, hi⟩
    simp only [Fin.getElem_fin] at hh
    rw [hh]
    simp only [mem_lines]
    rw [Vector.getElem_set]
    have hv := h ⟨i, hi⟩
    simp only at hv
    by_cases e : n.val = i
    · subst e
      simp [hn, hv]
    · have : ¬ (⟨i, hi⟩ : Line) = n := fun hh => e (congrArg Fin.val hh).symm
      simp [e, hv, this]
  rw [this]; rfl

end Sys2Proof.Machine
end

