-- ==== Sys2Proof/Tests/Slice0.lean ====
section
/-! SUPPORT. The model's own tests. Every expected value is one the spec gives: a row of
95_test_vectors.md, by its id, or the example of a rule. Then one witness, or one for each clause, for
every statement that has hypotheses. -/

namespace Sys2Proof.Tests

open Sys2Proof Sys2Proof.Machine

/-! ### Decoding: words written out from 30_encoding.md rules R81, R82 and R85 -/

/-- What the decoder reads from 12 bytes. -/
def reads (bs : List Byte) : Except DecodeReject Instr := (decodeBytes bs).map Prod.fst

/-- E1. -/
theorem test_decode_configTachometer :
    reads [0x01, 0x03, 0, 0, 0x1A, 0, 0, 0, 0, 0, 0, 0] = .ok (.configTachometer 3 26) := by decide

/-- E2. -/
theorem test_decode_updateTachTimer :
    reads [0x02, 0, 0, 0, 0xE8, 0x03, 0, 0, 0xF4, 0x01, 0, 0] =
      .ok (.updateTachTimer 1000 500) := by decide

/-- E3. -/
theorem test_decode_setTachIrqState :
    reads [0x03, 0x03, 0x03, 0, 0, 0, 0, 0, 0, 0, 0, 0] = .ok (.setTachIrqState 3 3) := by decide

/-- E4. -/
theorem test_decode_tachResponse :
    reads [0x81, 0x03, 0, 0, 0x78, 0x56, 0x34, 0x12, 0, 0, 0, 0] =
      .ok (.tachResponse 3 0x12345678) := by decide

/-- E5. -/
theorem test_decode_lineRegister :
    reads [0x10, 0x03, 0x01, 0, 0x1A, 0, 0, 0, 0, 0, 0, 0] = .ok (.lineRegister 3 1 26) := by decide

/-- E6. -/
theorem test_decode_lineSetTriggerMode :
    reads [0x11, 0x00, 0x03, 0, 0, 0, 0, 0, 0, 0, 0, 0] = .ok (.lineSetTriggerMode 0 3) := by decide

/-- E7. -/
theorem test_decode_lineUnregister :
    reads [0x12, 0x00, 0, 0, 0, 0, 0, 0, 0, 0, 0, 0] = .ok (.lineUnregister 0) := by decide

/-- E8. -/
theorem test_decode_pinChange :
    reads [0x20, 0, 0x01, 0, 0x1A, 0, 0, 0, 0, 0, 0, 0] = .ok (.pinChange 1 26) := by decide

/-- E9. -/
theorem test_decode_clockTick :
    reads [0x21, 0, 0, 0, 0, 0, 0, 0, 0, 0, 0, 0] = .ok .clockTick := by decide

/-- E9. -/
theorem test_decode_lineIsr :
    reads [0x22, 0x01, 0, 0, 0, 0, 0, 0, 0, 0, 0, 0] = .ok (.lineIsr 1) := by decide

/-- E9. -/
theorem test_decode_timerIsr :
    reads [0x23, 0, 0, 0, 0, 0, 0, 0, 0, 0, 0, 0] = .ok .timerIsr := by decide

/-- E9. -/
theorem test_decode_drainTask :
    reads [0x24, 0, 0, 0, 0, 0, 0, 0, 0, 0, 0, 0] = .ok .drainTask := by decide

/-- E9. -/
theorem test_decode_drainStep :
    reads [0x25, 0x03, 0, 0, 0, 0, 0, 0, 0, 0, 0, 0] = .ok (.drainStep 3) := by decide

/-- E10: a mode above 4 decodes. -/
theorem test_decode_mode9 :
    reads [0x03, 0x05, 0x09, 0, 0, 0, 0, 0, 0, 0, 0, 0] = .ok (.setTachIrqState 5 9) := by decide

/-- E11 and E13: a reserved bit that is 1. -/
theorem test_decode_reservedBits :
    reads [0x01, 0x03, 0, 0x01, 0x1A, 0, 0, 0, 0, 0, 0, 0] = .error .reservedBits ∧
    reads [0x02, 0x01, 0, 0, 0xE8, 0x03, 0, 0, 0xF4, 0x01, 0, 0] = .error .reservedBits := by
  decide

/-- E12 and E18: a reserved opcode. -/
theorem test_decode_reservedOpcode :
    reads [0x04, 0, 0, 0, 0, 0, 0, 0, 0, 0, 0, 0] = .error .reservedOpcode ∧
    reads [0, 0, 0, 0, 0, 0, 0, 0, 0, 0, 0, 0] = .error .reservedOpcode := by decide

/-- E14 and E15: `hsel` and `level` above 1. -/
theorem test_decode_badValues :
    reads [0x10, 0x03, 0x02, 0, 0x1A, 0, 0, 0, 0, 0, 0, 0] = .error .badHsel ∧
    reads [0x20, 0, 0x02, 0, 0x1A, 0, 0, 0, 0, 0, 0, 0] = .error .badLevel := by decide

/-- E16 and E17: legal frames that the host may not send. -/
theorem test_decodeHost_refusesEvents :
    decodeHost (encode (.lineIsr 0)) = .error .notHostSpace ∧
    decodeHost (encode (.tachResponse 3 7)) = .error .notHostSpace := by decide

/-- Fewer than 12 bytes are no frame (R80). -/
theorem test_decode_shortFrame : reads [0x21, 0, 0] = .error .shortFrame := by decide

/-- The host's table words: a row of 96 bits, and the same row given with 8. -/
theorem test_decodeTableWord :
    decodeTableWord 96 0x1A00000301 = some (.configTachometer 3 26) ∧
    decodeTableWord 8 0x24 = some .drainTask ∧ decodeTableWord 96 0x04 = none := by decide

/-- The text forms that rule R90 writes out. -/
theorem test_text :
    (Instr.configTachometer 3 26).text = "config_tachometer oid=3 pin=26" ∧
    (Instr.updateTachTimer 1000 500).text = "update_tach_timer clock=1000 rest_ticks=500" ∧
    (Instr.lineRegister 3 1 26).text = "line_register oid=3 hsel=1 pin=26" ∧
    (Instr.tachResponse 3 7).text = "tach_response oid=3 pulse_count=7" := by decide

/-! ### WellFormed: the ill-formed terms that its two checks refuse (30_encoding.md R87) -/

theorem test_illFormed_hsel : (Instr.lineRegister 3 2 26).wellFormed = false := by decide

theorem test_illFormed_level : (Instr.pinChange 2 26).wellFormed = false := by decide

theorem test_wellFormed : (Instr.lineRegister 3 1 26).wellFormed = true ∧
    (Instr.pinChange 1 26).wellFormed = true ∧ (Instr.setTachIrqState 5 9).wellFormed = true := by
  decide

/-! ### Small states -/

/-- Whether the step answers a next state that meets `p`. -/
def nextMeets (r : Result) (p : State → Bool) : Bool :=
  match r with
  | .next t => p t
  | _ => false

/-- Line 0 armed in mode 3 for oid 3, its flag set, and a count of 6 (the start of B5). -/
def armed : State :=
  { State.reset with
    trig := #v[0b11, 0, 0, 0, 0, 0, 0, 0]
    en := #v[true, false, false, false, false, false, false, false]
    pf := #v[true, false, false, false, false, false, false, false]
    owner := #v[some 3, none, none, none, none, none, none, none]
    handler := #v[.tachCount, .noop, .noop, .noop, .noop, .noop, .noop, .noop]
    tach := [(3, { line := 0, pulseCount := 6, enabled := true, activeMode := some .risingEdge })] }

/-- Oid 3 enabled with a count of 5, oid 4 disabled with a count of 2, the wake signal up (K4). -/
def waking : State :=
  { armed with
    pf := Vector.replicate 8 false
    tach := [(3, { line := 0, pulseCount := 5, enabled := true, activeMode := some .risingEdge }),
             (4, { line := 1, pulseCount := 2, enabled := false, activeMode := none })]
    wakeFlag := true }

/-- A drain with oid 3 still to be read, line 0 requesting. -/
def draining : State := { armed with drainLeft := some [3] }

/-- The timer due 3 ticks late (W3). -/
def timed : State :=
  { State.reset with ttActive := true, ttWake := 1000, ttRest := 500, clock := 1003 }

/-- The same in a variant that may fault on a wake 3 ticks late. -/
def timedLate : State :=
  { timed with config := { Config.ref2 with lateWakeFault := true, lateLimit := 3 } }

/-- Halted by P4's fatal error. -/
def halted : State :=
  { State.reset with fault := some (.invalidMode, encode (.setTachIrqState 5 9)) }

/-- Oids 0 to 3 configured on line 0: REF2's table is full (T3). -/
def full : State :=
  { State.reset with tach := [(0, newTach 0), (1, newTach 0), (2, newTach 0), (3, newTach 0)] }

/-! ### The operations -/

/-- T1. -/
theorem test_configTachometer_T1 :
    nextMeets (exec (.configTachometer 3 26) State.reset) (fun t =>
      tachOf t 3 == some { line := 0, pulseCount := 0, enabled := false, activeMode := none } &&
      t.owner[0] == some 3 && t.handler[0] == .tachCount && !t.en[0]) = true := by decide

/-- T3 and T4: the pin is checked before the capacity. -/
theorem test_configTachometer_T3_T4 :
    nextMeets (exec (.configTachometer 9 99) full) (fun t =>
      t.fault == some (.unsupportedPin, 0x000000000000006300000901#96)) = true ∧
    nextMeets (exec (.configTachometer 4 26) full) (fun t =>
      t.fault == some (.capacityExceeded, 0x000000000000001A00000401#96) &&
      tachOf t 4 == none) = true := by decide

/-- W1. -/
theorem test_updateTachTimer_W1 :
    nextMeets (exec (.updateTachTimer 1000 500) State.reset) (fun t =>
      t.ttActive && t.ttWake == 1000 && t.ttRest == 500) = true := by decide

/-- W2 and W7: an interval of 0 stops the timer, and a wake signal stays. -/
theorem test_updateTachTimer_W2_W7 :
    nextMeets (exec (.updateTachTimer 0 0) { timed with wakeFlag := true }) (fun t =>
      !t.ttActive && t.ttWake == 0 && t.ttRest == 0 && t.wakeFlag) = true := by decide

/-- M5: a change of mode programs the line and discards the latched edge (K7). -/
theorem test_setTachIrqState_M5 :
    nextMeets (exec (.setTachIrqState 3 1) armed) (fun t =>
      tachOf t 3 ==
        some { line := 0, pulseCount := 6, enabled := true, activeMode := some .anyEdge } &&
      t.trig[0] == 0b01 && t.en[0] && !t.pf[0]) = true := by decide

/-- M4 and Y4: the same mode writes nothing, and mode 9 is fatal and precise. -/
theorem test_setTachIrqState_M4_Y4 :
    nextMeets (exec (.setTachIrqState 3 3) armed) (fun t =>
      t.pf[0] && t.trig[0] == 0b11 && t.draws == 0) = true ∧
    nextMeets (exec (.setTachIrqState 3 9) armed) (fun t =>
      t.fault == some (.invalidMode, 0x000000000000000000090303#96) &&
      t.tach == armed.tach && t.trig == armed.trig && t.en == armed.en) = true := by decide

/-- B1, with the handle that is returned. -/
theorem test_lineRegister_B1 :
    nextMeets (exec (.lineRegister 3 1 26) State.reset) (fun t =>
      t.owner[0] == some 3 && t.handler[0] == .tachCount) = true ∧
    ((lineRegister 3 .tachCount 26 State.reset).toOption.map Prod.fst) = some 0 := by decide

/-- B3: a line that is taken over stays armed. -/
theorem test_lineRegister_B3 :
    nextMeets (exec (.lineRegister 4 1 26) armed) (fun t =>
      t.owner[0] == some 4 && t.en[0] && t.trig[0] == 0b11) = true := by decide

/-- L7. -/
theorem test_lineSetTriggerMode_L7 :
    nextMeets (exec (.lineSetTriggerMode 1 3) State.reset) (fun t =>
      t.trig[1] == 0b11 && t.en[1] && !t.pf[1] && eicr t == 0x000C && eimsk t == 0x02) = true := by
  decide

/-- L10 and L11: the line is checked before the mode. -/
theorem test_lineSetTriggerMode_L10_L11 :
    nextMeets (exec (.lineSetTriggerMode 0 5) State.reset) (fun t =>
      t.fault.map Prod.fst == some .invalidMode) = true ∧
    nextMeets (exec (.lineSetTriggerMode 2 9) State.reset) (fun t =>
      t.fault.map Prod.fst == some .invalidLine) = true := by decide

/-- B7. -/
theorem test_lineUnregister_B7 :
    nextMeets (exec (.lineUnregister 0) armed) (fun t =>
      !t.en[0] && t.trig[0] == 0b00 && t.owner[0] == none && t.handler[0] == .noop) = true := by
  decide

/-- B8. -/
theorem test_lineUnregister_B8 :
    nextMeets (exec (.lineUnregister 2) State.reset) (fun t =>
      t.fault.map Prod.fst == some .invalidLine) = true := by decide

/-- The example of 40_line_controller.md R113. -/
theorem test_pinChange_example :
    nextMeets (execAll [.pinChange 1 26, .pinChange 0 26]
        { armed with pf := Vector.replicate 8 false }) (fun t =>
      t.pf[0] && !levelAt t 26) = true := by decide

/-- The edge table of 95_test_vectors.md section 2.3: by trigger field, 0 to 1 and 1 to 0. -/
theorem test_latches_table :
    (latches 0b00 false true, latches 0b00 true false) = (false, false) ∧
    (latches 0b01 false true, latches 0b01 true false) = (true, true) ∧
    (latches 0b10 false true, latches 0b10 true false) = (false, true) ∧
    (latches 0b11 false true, latches 0b11 true false) = (true, false) := by decide

/-- Q1 to Q5. -/
theorem test_requests_Q :
    requests { armed with en := Vector.replicate 8 false } 0 = false ∧
    requests { armed with trig := Vector.replicate 8 0 } 0 = true ∧
    requests { armed with trig := Vector.replicate 8 0, level := [(26, true), (27, false)] } 0 =
      false ∧
    requests armed 0 = true ∧ requests { armed with pf := Vector.replicate 8 false } 0 = false := by
  decide

/-- W8. -/
theorem test_clockTick_W8 :
    nextMeets (exec .clockTick { State.reset with clock := 0xFFFFFFFF }) (fun t => t.clock == 0) =
      true := by decide

/-- B5 and B4: with an owner and without one. -/
theorem test_lineIsr_B5_B4 :
    nextMeets (exec (.lineIsr 0) armed) (fun t =>
      !t.pf[0] && (tachOf t 3).map Tach.pulseCount == some 7) = true ∧
    nextMeets (exec (.lineIsr 0)
        { armed with handler := Vector.replicate 8 .noop, owner := Vector.replicate 8 none })
      (fun t => !t.pf[0] && (tachOf t 3).map Tach.pulseCount == some 6) = true := by decide

/-- K1: the count wraps. -/
theorem test_lineIsr_K1 :
    nextMeets (exec (.lineIsr 0)
        { armed with tach := [(3, { newTach 0 with pulseCount := 0xFFFFFFFF })] })
      (fun t => (tachOf t 3).map Tach.pulseCount == some 0) = true := by decide

/-- W3. -/
theorem test_timerIsr_W3 :
    nextMeets (exec .timerIsr timed) (fun t => t.ttWake == 1500 && t.wakeFlag && t.ttActive) =
      true := by decide

/-- W6: the wake time wraps. -/
theorem test_timerIsr_W6 :
    nextMeets (exec .timerIsr
        { timed with ttWake := 0xFFFFFF00, ttRest := 0x200, clock := 0xFFFFFF00 })
      (fun t => t.ttWake == 0x100) = true := by decide

/-- The due table of 95_test_vectors.md section 2.5. -/
theorem test_due_table :
    due 1000 1000 = true ∧ due 999 1000 = false ∧ due 1001 1000 = true ∧
    due 0x00000005 0xFFFFFFF0 = true ∧ due 0xFFFFFFF0 0x00000005 = false ∧
    due (1000 + 0x7FFFFFFF) 1000 = true ∧ due (1000 + 0x80000000) 1000 = false := by decide

/-- The example of 41_tachometer.md R153. -/
theorem test_drainTask_example :
    nextMeets (exec .drainTask waking) (fun t => !t.wakeFlag && t.drainLeft == some [3]) =
      true := by decide

/-- K3. -/
theorem test_drainTask_K3 :
    nextMeets (exec .drainTask { State.reset with wakeFlag := true }) (fun t =>
      !t.wakeFlag && t.drainLeft == none && t.out == []) = true := by decide

/-- K2. -/
theorem test_drainStep_K2 :
    nextMeets (exec (.drainStep 3)
        { draining with tach := [(3, { newTach 0 with enabled := true, pulseCount := 0xFFFFFFFF })] })
      (fun t => t.out.map Frame.toBytes ==
          [[0x81, 0x03, 0x00, 0x00, 0xFF, 0xFF, 0xFF, 0xFF, 0x00, 0x00, 0x00, 0x00]] &&
        (tachOf t 3).map Tach.pulseCount == some 0 && t.drainLeft == none) = true := by decide

/-- The example of 41_tachometer.md R154. -/
theorem test_tachResponse_example :
    nextMeets (exec (.tachResponse 3 7) State.reset) (fun t => t.out.map Frame.toBytes ==
      [[0x81, 0x03, 0x00, 0x00, 0x07, 0x00, 0x00, 0x00, 0x00, 0x00, 0x00, 0x00]]) = true := by
  decide

/-! ### Registers -/

/-- A2. -/
theorem test_regRead_A2 :
    let s := { State.reset with trig := #v[0b11, 0b10, 0, 0, 0, 0, 0, 0] }
    (regRead 0 2 s).toOption = some 0x000B ∧ (regRead 0 1 s).toOption = some 0x0B ∧
    (regRead 1 1 s).toOption = some 0x00 := by decide

/-- A3 and A4: the reserved bits. -/
theorem test_regWrite_A3_A4 :
    ((regWrite 0 2 0xFFFF State.reset).toOption.map eicr) = some 0x000F ∧
    ((regWrite 2 1 0xFF State.reset).toOption.map eimsk) = some 0x03 := by decide

/-- A5 and A6: write 1 to clear. -/
theorem test_regWrite_A5_A6 :
    let s := { State.reset with pf := #v[true, true, false, false, false, false, false, false] }
    ((regWrite 3 1 0x01 s).toOption.map eifr) = some 0x02 ∧
    ((regWrite 3 1 0x00 s).toOption.map eifr) = some 0x03 := by decide

/-- A7. -/
theorem test_regRead_A7 :
    (regRead 1 2 State.reset).toOption = none ∧ (regRead 2 2 State.reset).toOption = none ∧
    (regRead 4 1 State.reset).toOption = none ∧ (regRead 0 4 State.reset).toOption = none := by
  decide

/-- The numbers of 60_exceptions.md R221's table, first and last. -/
theorem test_faultCode_numbers :
    FaultCode.unsupportedPin.number = 1 ∧ FaultCode.lateWake.number = 8 := by decide

/-! ### Steps -/

/-- P5: the host sends a line_isr, and the task context takes it up. -/
theorem test_step_P5 :
    nextMeets (step { State.reset with
        turns := [.runCommand], inbox := [encode (.lineIsr 0)] })
      (fun t => t.fault == some (.invalidCommand, 0x22#96)) = true := by decide

/-- Y2: a reset clears the fault. -/
theorem test_step_Y2 :
    nextMeets (step { halted with turns := [.reset 990 [27]] }) (fun t =>
      t.fault == none && t.clock == 990 && levelAt t 27 && !levelAt t 26) = true := by decide

/-- The host's word for a row runs as the first step after reset: a clock_tick, and T1's command. -/
theorem test_step_withFetchWord :
    nextMeets (step (State.reset.withFetchWord 96 0x21)) (fun t => t.clock == 1) = true ∧
    nextMeets (step (State.reset.withFetchWord 96 0x1A00000301)) (fun t =>
      t.owner[0] == some 3 && t.inbox == [] && t.turns == []) = true := by decide

/-- R75: a host command in an agent's turn does not overtake the one received first. -/
theorem test_step_commandsInOrder :
    nextMeets (step { State.reset with
        turns := [.agent (encode (.updateTachTimer 1000 500))]
        inbox := [encode (.configTachometer 3 26)] })
      (fun t => !t.ttActive && t.inbox == [encode (.configTachometer 3 26)]) = true := by decide

/-! ### Witnesses: each statement's hypotheses hold together somewhere -/

/-- REF2 meets rule R5. -/
theorem ref2_wf : Config.ref2.Wf :=
  ⟨by decide, by decide, by decide, by simp [Config.ref2],
    by rw [show Config.ref2.modeBits = [0, 2, 1, 3] from rfl]; decide, by decide, by decide⟩

/-- The invariant holds of a state with an instance, an armed line and a drain in progress. -/
theorem draining_inv : BlockInv draining :=
  ⟨ref2_wf, by decide, by decide, by decide, by decide, List.forall_mem_nil _⟩

theorem witness_DecodeOfEncodeIsTheInstruction :
    ∃ i : Instr, i.wellFormed = true := ⟨.lineRegister 3 1 26, by decide⟩

theorem witness_EncodeOfDecodeIsTheFrame : ∃ (f : Frame) (i : Instr), decode f = .ok i :=
  ⟨0x24#96, .drainTask, by decide⟩

theorem witness_IllegalFramesAreFatal :
    Running armed ∧ decode 0x04#96 = .error .reservedOpcode ∧
    decode 0x0121#96 = .error .reservedBits ∧ decode 0x020310#96 = .error .badHsel ∧
    decode 0x020020#96 = .error .badLevel := by decide

theorem witness_FrameBytesAreLittleEndian : ∃ k : Nat, k < 12 := ⟨11, by decide⟩

theorem witness_HostChannelAcceptsHostSpaceOnly :
    Running armed ∧ Frame.op 0x03#96 = 0x03 ∧
    (Frame.op 0x22#96 ≠ 0x01 ∧ Frame.op 0x22#96 ≠ 0x02 ∧ Frame.op 0x22#96 ≠ 0x03) := by decide

theorem witness_StepRunsTheDecodedInstruction_agent :
    ∃ (s : State) (f : Frame) (rest : List Turn) (i : Instr),
      s.turns = .agent f :: rest ∧ f.hostSpace = false ∧ decode f = .ok i :=
  ⟨{ armed with turns := [.agent 0x22#96] }, 0x22#96, [], .lineIsr 0, by decide⟩

theorem witness_StepRunsTheDecodedInstruction_command :
    ∃ (s : State) (f : Frame) (queue : List Frame) (rest : List Turn) (i : Instr),
      TaskReady s ∧ s.turns = .runCommand :: rest ∧ s.inbox = f :: queue ∧ f.hostSpace = true ∧
        decode f = .ok i :=
  ⟨{ armed with turns := [.runCommand], inbox := [0x040303#96] }, 0x040303#96, [], [],
    .setTachIrqState 3 4, by decide⟩

/-- An illegal frame in an agent's turn, a host command there, and a legal frame that the host may not
send. -/
theorem witness_StepRunsTheDecodedInstruction_anyFrame :
    (∃ (s : State) (f : Frame) (rest : List Turn) (r : DecodeReject),
      s.turns = .agent f :: rest ∧ f.hostSpace = false ∧ decode f = .error r) ∧
    (∃ (s : State) (f : Frame) (rest : List Turn),
      s.turns = .agent f :: rest ∧ f.hostSpace = true) ∧
    ∃ (s : State) (f : Frame) (queue : List Frame) (rest : List Turn),
      TaskReady s ∧ s.turns = .runCommand :: rest ∧ s.inbox = f :: queue ∧
        decodeHost f = .error .notHostSpace :=
  ⟨⟨{ armed with turns := [.agent 0x04#96] }, 0x04#96, [], .reservedOpcode, by decide⟩,
    ⟨{ armed with turns := [.agent 0x040303#96] }, 0x040303#96, [], by decide⟩,
    ⟨{ armed with turns := [.runCommand], inbox := [0x22#96] }, 0x22#96, [], [], by decide⟩⟩

theorem witness_HostChannelKeepsOrder_send :
    ∃ (s : State) (f : Frame) (rest : List Turn), Running s ∧ s.turns = .hostSends f :: rest :=
  ⟨{ armed with turns := [.hostSends 0x24#96] }, 0x24#96, [], by decide⟩

theorem witness_HostChannelKeepsOrder_take :
    ∃ (s : State) (f : Frame) (others : List Frame) (rest : List Turn),
      Running s ∧ s.turns = .hostTakes :: rest ∧ s.out = f :: others :=
  ⟨{ armed with turns := [.hostTakes], out := [0x0381#96] }, 0x0381#96, [], [], by decide⟩

/-- A step that takes the older of two commands off the queue. -/
theorem witness_HostChannelKeepsOrder_step :
    ∃ s t : State, step s = .next t ∧ s.inbox = 0x040303#96 :: t.inbox ∧ t.inbox ≠ [] :=
  ⟨{ armed with turns := [.runCommand], inbox := [0x040303#96, 0x010303#96] }, _, rfl, rfl,
    by decide⟩

theorem witness_HaltedBlockTakesNoStep_turn :
    ∃ (s : State) (x : FaultCode × Frame) (turn : Turn) (rest : List Turn),
      s.fault = some x ∧ s.turns = turn :: rest ∧ ∀ clock high, turn ≠ .reset clock high :=
  ⟨{ halted with turns := [.agent 0x21#96] }, (.invalidMode, encode (.setTachIrqState 5 9)),
    .agent 0x21#96, [], by decide, by decide, by simp⟩

theorem witness_HaltedBlockTakesNoStep_reset :
    ∃ (s : State) (x : FaultCode × Frame) (clock : Word) (high : List Pin) (rest : List Turn),
      s.fault = some x ∧ s.turns = .reset clock high :: rest :=
  ⟨{ halted with turns := [.reset 0 []] }, (.invalidMode, encode (.setTachIrqState 5 9)), 0, [], [],
    by decide⟩

theorem witness_StepStopsOnlyWhenHaltedForGood :
    halted.turns = [] ∧ halted.fault ≠ none ∧ step halted = .fault .halted :=
  ⟨by decide, by decide, rfl⟩

theorem witness_StepsNotEnabledChangeNothing :
    Running State.reset ∧ (0 : Line).val = (0 : Byte).toNat ∧
    (0 : Line).val < State.reset.config.nLines ∧ requests State.reset 0 = false ∧
    State.reset.ttActive = false ∧ due State.reset.clock timed.ttWake = false ∧
    State.reset.wakeFlag = false ∧ draining.drainLeft ≠ none ∧ Running draining ∧
    (∀ left, draining.drainLeft = some left → (4 : Oid) ∉ left) :=
  ⟨by decide, by decide, by decide, by decide, by decide, by decide, by decide, by decide, by decide,
    by intro left h; cases h; decide⟩

theorem witness_DrainExcludesOtherTaskSteps :
    draining.drainLeft = some [3] ∧ (1 : Byte).toNat ≤ 1 := by decide

/-- A command waits in the inbox while a drain is in progress. -/
theorem witness_DrainExcludesOtherTaskSteps_command :
    ∃ (s : State) (left : List Oid) (rest : List Turn), s.drainLeft = some left ∧
      s.turns = .runCommand :: rest ∧ s.inbox ≠ [] :=
  ⟨{ draining with turns := [.runCommand], inbox := [0x040303#96] }, [3], [], by decide⟩

theorem witness_ResetValues : lineOfPin Config.ref2 27 ≠ none := by decide

theorem witness_ResetRestartsTheBlock :
    ∃ (s : State) (clock : Word) (high : List Pin) (rest : List Turn),
      s.turns = .reset clock high :: rest :=
  ⟨{ halted with turns := [.reset 990 [27], .runCommand] }, 990, [27], [.runCommand], by decide⟩

theorem witness_NothingIsPendingAfterReset :
    (1 : Line).val = (1 : Byte).toNat ∧ (1 : Line).val < Config.ref2.nLines := by decide

theorem witness_EveryResetMeetsTheInvariant : Config.ref2.Wf := ref2_wf

theorem witness_EveryStepKeepsTheInvariant :
    ∃ s t : State, BlockInv s ∧ step s = .next t :=
  ⟨{ draining with turns := [.agent (encode (.drainStep 3))] }, _,
    ⟨ref2_wf, by decide, by decide, by decide, by decide, List.forall_mem_nil _⟩, rfl⟩

theorem witness_FatalErrorsArePrecise :
    ∃ (i : Instr) (s t : State) (c : FaultCode) (f : Frame),
      Running s ∧ exec i s = .next t ∧ t.fault = some (c, f) :=
  ⟨.configTachometer 5 99, State.reset, _, .unsupportedPin, encode (.configTachometer 5 99),
    by decide, rfl, by decide⟩

theorem witness_CommandsCheckInOrder :
    TaskReady armed ∧ tachOf armed 3 ≠ none ∧
    (tachOf armed 5 = none ∧ lineOfPin armed.config 99 = none) ∧ 4 < (5 : Byte).toNat := by decide

theorem witness_CommandsCheckInOrder_capacity :
    TaskReady full ∧ tachOf full 9 = none ∧ lineOfPin full.config 26 ≠ none ∧
    full.tach.length = full.config.maxTach := by decide

theorem witness_ControllerOperationsCheckInOrder :
    TaskReady armed ∧ (0 : Byte).toNat ≤ 1 ∧ lineOfPin armed.config 99 = none ∧
    armed.config.nLines ≤ (2 : Byte).toNat ∧
    ((1 : Byte).toNat < armed.config.nLines ∧ armed.config.nLines ≤ 8 ∧ 4 < (5 : Byte).toNat) := by
  decide

/-- Line 0 owned by an oid that has no instance. -/
def orphan : State := { armed with tach := [] }

theorem witness_ServiceRoutineFaults :
    Running orphan ∧ orphan.config.nLines ≤ (2 : Byte).toNat ∧
    ((0 : Line).val = (0 : Byte).toNat ∧ (0 : Line).val < orphan.config.nLines ∧
      requests orphan 0 = true ∧ orphan.handler[(0 : Line)] = .tachCount ∧
      orphan.owner[(0 : Line)] = some 3 ∧ tachOf orphan 3 = none) := by decide

theorem witness_LineRegisterBindsTheLine :
    TaskReady State.reset ∧ (1 : Byte).toNat ≤ 1 ∧ lineOfPin State.reset.config 26 = some 0 ∧
    lineOfPin State.reset.config 99 = none := by decide

theorem witness_PinMapIsInjective :
    Config.ref2.Wf ∧ lineOfPin Config.ref2 27 = some 1 := ⟨ref2_wf, by decide⟩

theorem witness_LineSetTriggerModeArms :
    TaskReady armed ∧ (1 : Line).val = (1 : Byte).toNat ∧ (1 : Line).val < armed.config.nLines ∧
    (3 : Byte).toNat ≤ 3 ∧ (0 : Byte).toNat ≤ 3 := by decide

theorem witness_LineSetTriggerModeDisables :
    TaskReady armed ∧ (0 : Line).val = (0 : Byte).toNat ∧ (0 : Line).val < armed.config.nLines := by
  decide

theorem witness_ArmingLeavesNoEdgeRequest :
    ∃ (s t : State) (line mode : Byte) (n : Line), TaskReady s ∧ n.val = line.toNat ∧
      n.val < s.config.nLines ∧ 1 ≤ mode.toNat ∧ mode.toNat ≤ 3 ∧
      exec (.lineSetTriggerMode line mode) s = .next t :=
  ⟨armed, _, 0, 1, 0, by decide, by decide, by decide, by decide, by decide, rfl⟩

theorem witness_TriggerSequenceMatchesRegisters :
    armed.config.Wf ∧ (1 : Line).val < armed.config.nLines := ⟨ref2_wf, by decide⟩

theorem witness_LineUnregisterReleasesTheLine :
    TaskReady armed ∧ (0 : Line).val = (0 : Byte).toNat ∧ (0 : Line).val < armed.config.nLines := by
  decide

theorem witness_PinChangeLatchesItsEdges :
    Running armed ∧ lineOfPin armed.config 99 = none ∧ lineOfPin armed.config 26 = some 0 ∧
    (26 : Pin) ≠ 27 ∧ levelAt armed 26 = false := by decide

theorem witness_LineIsrWithoutOwnerClearsTheFlag :
    let s := { armed with handler := Vector.replicate 8 .noop, owner := Vector.replicate 8 none }
    Running s ∧ (0 : Line).val = (0 : Byte).toNat ∧ (0 : Line).val < s.config.nLines ∧
    requests s 0 = true ∧ s.handler[(0 : Line)] = .noop := by decide

theorem witness_LineIsrCountsForTheOwner :
    Running armed ∧ (0 : Line).val = (0 : Byte).toNat ∧ (0 : Line).val < armed.config.nLines ∧
    requests armed 0 = true ∧ armed.handler[(0 : Line)] = .tachCount ∧
    armed.owner[(0 : Line)] = some 3 ∧
    tachOf armed 3 =
      some { line := 0, pulseCount := 6, enabled := true, activeMode := some .risingEdge } := by
  decide

/-- Both lines requesting, for oids 3 and 4, and the timer due. -/
def bothLines : State :=
  { waking with
    trig := #v[0b11, 0b10, 0, 0, 0, 0, 0, 0]
    en := #v[true, true, false, false, false, false, false, false]
    pf := #v[true, true, false, false, false, false, false, false]
    owner := #v[some 3, some 4, none, none, none, none, none, none]
    handler := #v[.tachCount, .tachCount, .noop, .noop, .noop, .noop, .noop, .noop]
    ttActive := true, ttWake := 0, ttRest := 500, wakeFlag := false }

theorem witness_ServiceRoutinesCommute_lines :
    ∃ (s u t u' t' : State) (a b : Byte), a ≠ b ∧ exec (.lineIsr a) s = .next u ∧
      exec (.lineIsr b) u = .next t ∧ exec (.lineIsr b) s = .next u' ∧
      exec (.lineIsr a) u' = .next t' ∧ t.fault = none :=
  ⟨bothLines, _, _, _, _, 0, 1, by decide, rfl, rfl, rfl, rfl, by decide⟩

/-- Two unowned lines. -/
theorem witness_ServiceRoutinesCommute_unowned :
    ∃ (s u t u' t' : State) (a b : Byte), a ≠ b ∧ s.owner[0] = none ∧ s.owner[1] = none ∧
      exec (.lineIsr a) s = .next u ∧ exec (.lineIsr b) u = .next t ∧
      exec (.lineIsr b) s = .next u' ∧ exec (.lineIsr a) u' = .next t' ∧ t.fault = none :=
  ⟨{ bothLines with owner := Vector.replicate 8 none, handler := Vector.replicate 8 .noop },
    _, _, _, _, 0, 1, by decide, rfl, rfl, rfl, rfl, rfl, rfl, by decide⟩

theorem witness_ServiceRoutinesCommute_timer :
    ∃ (s u t u' t' : State) (a : Byte), exec (.lineIsr a) s = .next u ∧
      exec .timerIsr u = .next t ∧ exec .timerIsr s = .next u' ∧ exec (.lineIsr a) u' = .next t' ∧
      t.fault = none :=
  ⟨bothLines, _, _, _, _, 0, rfl, rfl, rfl, rfl, by decide⟩

theorem witness_EicrHoldsTheTriggerFields :
    armed.config.Wf ∧ (1 : Line).val < armed.config.nLines ∧
    armed.config.nLines ≤ (2 : Line).val := ⟨ref2_wf, by decide, by decide⟩

theorem witness_EimskHoldsTheEnables :
    (1 : Line).val < armed.config.nLines ∧ armed.config.nLines ≤ (2 : Line).val := by decide

theorem witness_EifrIsWriteOneToClear :
    (0 : Line).val < armed.config.nLines ∧ armed.config.nLines ≤ (7 : Line).val := by decide

theorem witness_ReservedRegisterBits :
    (4 : Fin 16) ∉ armed.config.modeBits ∧ armed.config.nLines ≤ 2 ∧
    (∀ b ∈ armed.config.modeBits,
      (0xFFF0#16).getLsbD b.val = (0x0000#16).getLsbD b.val) ∧
    (∀ b : Nat, b < armed.config.nLines → (0xFFFC#16).getLsbD b = (0x0000#16).getLsbD b) := by
  decide

theorem witness_OtherRegisterAccessesAreRefused :
    ((1 = 1 ∧ 3 ≤ 3) ∨ (1 = 2 ∧ 3 = 0)) ∧ ¬ ((1 = 1 ∧ 4 ≤ 3) ∨ (1 = 2 ∧ 4 = 0)) ∧
    ¬ ((2 = 1 ∧ 1 ≤ 3) ∨ (2 = 2 ∧ 1 = 0)) := by decide

theorem witness_ConfigTachometerMakesTheInstance :
    TaskReady armed ∧ tachOf armed 4 = none ∧ lineOfPin armed.config 27 = some 1 ∧
    armed.tach.length ≠ armed.config.maxTach := by decide

/-- An instance that is disabled, and one that is enabled in another mode. -/
theorem witness_SetTachIrqStateEnables :
    TaskReady waking ∧
    tachOf waking 4 = some { line := 1, pulseCount := 2, enabled := false, activeMode := none } ∧
    (1 : Line).val < waking.config.nLines ∧
    tachOf waking 3 =
      some { line := 0, pulseCount := 5, enabled := true, activeMode := some .risingEdge } ∧
    some Mode.risingEdge ≠ some Mode.levelLow := by decide

theorem witness_SetTachIrqStateDisables :
    TaskReady armed ∧
    tachOf armed 3 =
      some { line := 0, pulseCount := 6, enabled := true, activeMode := some .risingEdge } ∧
    (0 : Line).val < armed.config.nLines := by decide

theorem witness_UnchangedModeIsNotReapplied :
    TaskReady waking ∧
    tachOf waking 3 =
      some { line := 0, pulseCount := 5, enabled := true, activeMode := some .risingEdge } ∧
    tachOf waking 4 = some { line := 1, pulseCount := 2, enabled := false, activeMode := none } := by
  decide

theorem witness_RepeatedModeChangeIsIdempotent :
    ∃ (s t : State) (oid : Oid) (mode : Byte), TaskReady s ∧
      exec (.setTachIrqState oid mode) s = .next t ∧ Running t :=
  ⟨armed, _, 3, 1, by decide, rfl, by decide⟩

theorem witness_DrainTaskTakesTheEnabledInstances :
    TaskReady waking ∧ waking.wakeFlag = true ∧ Rising waking.tach := by decide

theorem witness_DrainStepReadsResetsAndReports :
    Running draining ∧ draining.drainLeft = some [3] ∧ (3 : Oid) ∈ [(3 : Oid)] ∧
    tachOf draining 3 =
      some { line := 0, pulseCount := 6, enabled := true, activeMode := some .risingEdge } := by
  decide

theorem witness_TachResponseJoinsOut : Running armed := by decide

theorem witness_OnlyEnabledInstancesAreReported :
    ∃ (i : Instr) (s t : State), BlockInv s ∧ exec i s = .next t ∧ isReport i = false :=
  ⟨.drainStep 3, draining, _, draining_inv, rfl, by decide⟩

/-- A run with one handler invocation and one report (K5). -/
theorem witness_NoHandlerInvocationIsLost :
    ∃ (run : List Instr) (s t : State) (oid : Oid), (∀ i ∈ run, isReport i = false) ∧
      execAll run s = .next t ∧ pulseCalls oid run s = 1 ∧ t.out ≠ s.out :=
  ⟨[.lineIsr 0, .drainStep 3], draining, _, 3, by decide, rfl, by decide, by decide⟩

theorem witness_InstancesAreKept :
    ∃ (i : Instr) (s t : State) (oid : Oid) (a : Tach),
      exec i s = .next t ∧ tachOf s oid = some a :=
  ⟨.lineIsr 0, armed, _, 3, _, rfl, rfl⟩

/-- A mode command that disables the instance. -/
theorem witness_InstancesAreKept_mode :
    ∃ (i : Instr) (s t : State), exec i s = .next t ∧
      (tachOf s 3).map Tach.enabled = some true ∧ (tachOf t 3).map Tach.enabled = some false :=
  ⟨.setTachIrqState 3 4, armed, _, rfl, by decide, by decide⟩

theorem witness_UpdateTachTimerReplacesTheWake : TaskReady timed := by decide

theorem witness_TimerIsrAdvancesTheWake :
    Running timed ∧ timed.ttActive = true ∧ due timed.clock timed.ttWake = true ∧
    timed.config.lateWakeFault = false := by decide

theorem witness_TimerIsrAdvancesTheWake_notLate :
    let s := { timedLate with clock := 1002 }
    Running s ∧ s.ttActive = true ∧ due s.clock s.ttWake = true ∧
    (s.clock - s.ttWake).toNat < s.config.lateLimit.toNat := by decide

theorem witness_LateExpiryFaultsOrAdvances :
    Running timedLate ∧ timedLate.ttActive = true ∧
    due timedLate.clock timedLate.ttWake = true ∧ timedLate.config.lateWakeFault = true ∧
    timedLate.config.lateLimit.toNat ≤ (timedLate.clock - timedLate.ttWake).toNat := by decide

theorem witness_ClockTickAddsOne : Running timed := by decide

theorem witness_DueTest :
    (1 ≤ 2 ^ 31 ∧ 2 ^ 31 ≤ 2 ^ 31) ∧ (2 ^ 31 - 1 ≤ 2 ^ 31 - 1) ∧ (0 < 2 ^ 31) := by decide

/-- W4's schedule, for one expiry. -/
theorem witness_FixedRateSchedule :
    ∃ (s s0 t : State) (clock rest : Word) (run : List Instr), TaskReady s ∧ rest ≠ 0 ∧
      exec (.updateTachTimer clock rest) s = .next s0 ∧ (∀ i ∈ run, isUpdateTimer i = false) ∧
      execAll run s0 = .next t ∧ t.ttWake = 1500 :=
  ⟨{ State.reset with clock := 1003 }, _, _, 1000, 500, [.timerIsr, .clockTick], by decide,
    by decide, rfl, by decide, rfl, by decide⟩

theorem witness_LineFieldWriters :
    ∃ (i : Instr) (s t : State), exec i s = .next t ∧ t.trig ≠ s.trig ∧ t.owner ≠ s.owner :=
  ⟨.lineUnregister 0, armed, _, rfl, by decide, by decide⟩

theorem witness_LineFieldWriters_flag :
    ∃ (i : Instr) (s t : State), exec i s = .next t ∧ t.pf ≠ s.pf :=
  ⟨.lineIsr 0, armed, _, rfl, by decide⟩

theorem witness_EnvironmentAndTimerWriters :
    ∃ (i : Instr) (s t : State), exec i s = .next t ∧ t.ttWake ≠ s.ttWake ∧
      t.wakeFlag ≠ s.wakeFlag :=
  ⟨.timerIsr, timed, _, rfl, by decide, by decide⟩

end Sys2Proof.Tests
end

section
/-! The invariant of the block: what each shared update needs to keep it, then the reset, the
operations and the steps (O19). -/

namespace Sys2Proof.Machine

/-! ### The parts of the invariant -/

/-- An update that touches one existing line keeps what holds of the lines, when it leaves that line
unowned with the no-op handler only. -/
theorem linesWf_of_sameElsewhere {s t : State} {n : Line} (h : LinesWf s)
    (hconfig : t.config = s.config) (hn : n.val < s.config.nLines)
    (htrig : SameElsewhere n s.trig t.trig) (hen : SameElsewhere n s.en t.en)
    (hpf : SameElsewhere n s.pf t.pf) (howner : SameElsewhere n s.owner t.owner)
    (hhandler : SameElsewhere n s.handler t.handler)
    (hbound : t.owner[n] = none → t.handler[n] = .noop) : LinesWf t := by
  intro k
  rw [hconfig]
  by_cases hk : k = n
  · subst hk
    exact ⟨hbound, fun hle => absurd hn (Nat.not_lt.2 hle)⟩
  · rw [htrig k hk, hen k hk, hpf k hk, howner k hk, hhandler k hk]
    exact h k

/-- A table that meets the invariant still does after a write of a sound entry within MAX_TACH. -/
theorem tableWf_putTach {s : State} {oid : Oid} {b : Tach} (h : TableWf s)
    (hline : b.line.val < s.config.nLines) (hmode : b.enabled = b.activeMode.isSome)
    (hroom : (keyPut oid b s.tach).length ≤ s.config.maxTach) : TableWf (putTach oid b s) := by
  obtain ⟨hrising, -, hsound⟩ := h
  refine ⟨keyPut_rising hrising oid b, hroom, fun e he => ?_⟩
  rcases mem_keyPut he with rfl | he
  · exact ⟨hline, hmode⟩
  · exact hsound e he

/-- A configured pulse counter is on an existing line and has a mode exactly while it is enabled. -/
theorem tach_sound {s : State} {oid : Oid} {a : Tach} (h : TableWf s) (ha : tachOf s oid = some a) :
    a.line.val < s.config.nLines ∧ a.enabled = a.activeMode.isSome := by
  obtain ⟨hrising, -, hsound⟩ := h
  exact hsound (oid, a) ((lookup_eq_some_iff_mem hrising oid a).1 ha)

/-- Replacing an entry of the table leaves it within MAX_TACH. -/
theorem room_of_configured {s : State} {oid : Oid} {a : Tach} (h : TableWf s)
    (ha : tachOf s oid = some a) (b : Tach) : (keyPut oid b s.tach).length ≤ s.config.maxTach := by
  obtain ⟨hrising, hlength, -⟩ := h
  have hkey : oid ∈ s.tach.map Prod.fst :=
    (lookup_isSome_iff s.tach oid).1 (Option.isSome_of_eq_some ha)
  rwa [length_keyPut_of_mem hrising hkey]

/-- The levels are listed by rising pin, as the pin map is. -/
theorem level_rising {s : State} (hw : s.config.Wf) (h : LevelWf s) : Rising s.level := by
  obtain ⟨-, hpinmap, -⟩ := hw
  have hpins : (s.level.map Prod.fst).Pairwise (· < ·) := by
    rw [h]
    exact List.pairwise_map.2 hpinmap
  exact List.pairwise_map.1 hpins

/-- A level change of a mapped pin keeps exactly the mapped pins listed. -/
theorem levelWf_putLevel {s : State} {p : Pin} {n : Line} (hw : s.config.Wf) (h : LevelWf s)
    (hp : lineOfPin s.config p = some n) (v : Bool) : LevelWf (putLevel p v s) := by
  have hkey : p ∈ s.level.map Prod.fst := by
    rw [h]
    exact (lookup_isSome_iff s.config.pinmap p).1 (Option.isSome_of_eq_some hp)
  exact (keys_keyPut_of_mem (level_rising hw h) hkey v).trans h

/-- An oid that a drain has left to read is enabled. -/
theorem enabled_of_mem_drainLeft {s : State} {left : List Oid} {oid : Oid} {a : Tach}
    (h : DrainWf s) (hd : s.drainLeft = some left) (hm : oid ∈ left) (ha : tachOf s oid = some a) :
    a.enabled = true := by
  obtain ⟨-, -, henabled⟩ := h left (by simp [hd])
  simpa [ha] using henabled oid hm

/-- A drain stays sound when an oid it has left to read stays enabled. -/
theorem drainWf_putTach {s : State} {oid : Oid} {b : Tach} (h : DrainWf s)
    (hb : ∀ left, s.drainLeft = some left → oid ∈ left → b.enabled = true) :
    DrainWf (putTach oid b s) := by
  intro left hleft
  obtain ⟨hne, hrising, henabled⟩ := h left hleft
  refine ⟨hne, hrising, fun o ho => ?_⟩
  by_cases e : o = oid
  · subst e
    simpa using hb left (by simpa using hleft) ho
  · rw [tachOf_putTach_ne e]
    exact henabled o ho

/-- `drainOf` never leaves a drain with nothing to read. -/
theorem drainOf_eq_some {left l : List Oid} (h : drainOf left = some l) : l = left ∧ l ≠ [] := by
  unfold drainOf at h
  split at h
  · cases h
  · rename_i hne
    cases h
    exact ⟨rfl, by simpa using hne⟩

/-- The frame of a report decodes to that report. -/
theorem decode_encode_tachResponse (oid : Oid) (count : Word) :
    decode (encode (.tachResponse oid count)) = .ok (.tachResponse oid count) := by
  have hop : (encode (.tachResponse oid count)).op = 0x81#8 := op_packFrame _ _ _ _ _
  rw [decode_tachResponse hop]
  simp [encode]

/-! ### The updates -/

theorem blockInv_bindLine {s : State} {n : Line} {o : Option Oid} {hd : Handler} (h : BlockInv s)
    (hn : n.val < s.config.nLines) (hbound : o = none → hd = .noop) :
    BlockInv (bindLine n o hd s) := by
  obtain ⟨hw, htable, hlevel, hlines, hdrain, hout⟩ := h
  refine ⟨hw, htable, hlevel, ?_, hdrain, hout⟩
  exact linesWf_of_sameElsewhere hlines rfl hn (fun _ _ => rfl) (fun _ _ => rfl) (fun _ _ => rfl)
    (set_sameElsewhere n _ _) (set_sameElsewhere n _ _) (by simpa using hbound)

theorem blockInv_setPf {s : State} {n : Line} (h : BlockInv s) (hn : n.val < s.config.nLines)
    (v : Bool) : BlockInv (setPf n v s) := by
  obtain ⟨hw, htable, hlevel, hlines, hdrain, hout⟩ := h
  refine ⟨hw, htable, hlevel, ?_, hdrain, hout⟩
  obtain ⟨hbound, -⟩ := hlines n
  exact linesWf_of_sameElsewhere hlines rfl hn (fun _ _ => rfl) (fun _ _ => rfl)
    (set_sameElsewhere n _ _) (fun _ _ => rfl) (fun _ _ => rfl) hbound

theorem blockInv_programLine {s : State} {n : Line} (h : BlockInv s) (hn : n.val < s.config.nLines)
    (m : Option Mode) : BlockInv (programLine n m s) := by
  obtain ⟨hw, htable, hlevel, hlines, hdrain, hout⟩ := h
  have hlines' : LinesWf (programLine n m s) := by
    obtain ⟨hbound, -⟩ := hlines n
    exact linesWf_of_sameElsewhere hlines (programLine_config n m s) hn
      (fun _ hk => programLine_trig_other hk m s) (fun _ hk => programLine_en_other hk m s)
      (fun _ hk => programLine_pf_other hk m s) (fun _ _ => by rw [programLine_owner])
      (fun _ _ => by rw [programLine_handler]) (by simpa using hbound)
  rw [programLine_frame] at hlines' ⊢
  exact ⟨hw, htable, hlevel, hlines', hdrain, hout⟩

theorem blockInv_putLevel {s : State} {p : Pin} {n : Line} (h : BlockInv s)
    (hp : lineOfPin s.config p = some n) (v : Bool) : BlockInv (putLevel p v s) := by
  obtain ⟨hw, htable, hlevel, hlines, hdrain, hout⟩ := h
  exact ⟨hw, htable, levelWf_putLevel hw hlevel hp v, hlines, hdrain, hout⟩

theorem blockInv_putTach {s : State} {oid : Oid} {b : Tach} (h : BlockInv s)
    (hline : b.line.val < s.config.nLines) (hmode : b.enabled = b.activeMode.isSome)
    (hroom : (keyPut oid b s.tach).length ≤ s.config.maxTach)
    (hdrained : ∀ left, s.drainLeft = some left → oid ∈ left → b.enabled = true) :
    BlockInv (putTach oid b s) := by
  obtain ⟨hw, htable, hlevel, hlines, hdrain, hout⟩ := h
  exact ⟨hw, tableWf_putTach htable hline hmode hroom, hlevel, hlines,
    drainWf_putTach hdrain hdrained, hout⟩

/-- Counting, and clearing the count, are writes of the count alone. -/
theorem blockInv_putTach_count {s : State} {oid : Oid} {a : Tach} (h : BlockInv s)
    (ha : tachOf s oid = some a) (count : Word) :
    BlockInv (putTach oid { a with pulseCount := count } s) := by
  have ⟨_, htable, _, _, hdrain, _⟩ := h
  obtain ⟨hline, hmode⟩ := tach_sound htable ha
  have hdrained : ∀ left, s.drainLeft = some left → oid ∈ left → a.enabled = true :=
    fun _ hd hm => enabled_of_mem_drainLeft hdrain hd hm ha
  exact blockInv_putTach h hline hmode (room_of_configured htable ha _) hdrained

theorem blockInv_drainOf {s : State} {left : List Oid} (h : BlockInv s)
    (hrising : left.Pairwise (· < ·))
    (henabled : ∀ oid ∈ left, (tachOf s oid).map Tach.enabled = some true) (wake : Bool) :
    BlockInv { s with wakeFlag := wake, drainLeft := drainOf left } := by
  obtain ⟨hw, htable, hlevel, hlines, -, hout⟩ := h
  refine ⟨hw, htable, hlevel, hlines, fun l hl => ?_, hout⟩
  obtain ⟨rfl, hne⟩ := drainOf_eq_some (Option.mem_toList.1 hl)
  exact ⟨hne, hrising, henabled⟩

theorem blockInv_emit_tachResponse {s : State} (h : BlockInv s) (oid : Oid) (count : Word) :
    BlockInv (emit (encode (.tachResponse oid count)) s) := by
  obtain ⟨hw, htable, hlevel, hlines, hdrain, hout⟩ := h
  refine ⟨hw, htable, hlevel, hlines, hdrain, fun f hf => ?_⟩
  rcases List.mem_append.1 hf with hf | hf
  · exact hout f hf
  · obtain rfl := List.mem_singleton.1 hf
    rw [decode_encode_tachResponse]
    simp [encode]

/-- The state after reset meets the invariant, for every free draw. -/
theorem blockInv_resetWith {c : Config} (hc : c.Wf) (clock : Word) (high : List Pin) :
    BlockInv (State.resetWith c clock high) := by
  have htable : TableWf (State.resetWith c clock high) :=
    ⟨List.Pairwise.nil, Nat.zero_le _, fun _ he => absurd he List.not_mem_nil⟩
  have hlevel : LevelWf (State.resetWith c clock high) := List.map_map
  have hlines : LinesWf (State.resetWith c clock high) := fun n => by simp [State.resetWith]
  have hdrain : DrainWf (State.resetWith c clock high) := fun _ hl => absurd hl List.not_mem_nil
  have hout : OutWf (State.resetWith c clock high) := fun _ hf => absurd hf List.not_mem_nil
  exact ⟨hc, htable, hlevel, hlines, hdrain, hout⟩

/-! ### Operations and steps -/

/-- Every operation keeps the invariant. -/
theorem exec_keeps_blockInv {i : Instr} {s t : State} (h : BlockInv s) (he : exec i s = .next t) :
    BlockInv t := by
  have ⟨hw, htable, _, _, hdrain, _⟩ := h
  have ⟨hrising, hlength, _⟩ := htable
  cases exec_cases i s t he with
  | same ht | fatal _ _ _ ht | update _ _ _ _ _ ht | tick _ _ ht | expiry _ _ _ _ _ _ ht =>
    subst ht
    exact h
  | config o p n _ _ hidle _ hp hroom ht =>
    subst ht
    have hn := lineOfPin_lt hw hp
    have hgrown := length_keyPut_le o (newTach n) s.tach
    exact blockInv_bindLine
      (blockInv_putTach h hn rfl (by omega) (by simp [hidle])) hn (by simp)
  | mode o _ a req b _ _ hidle ha hline _ hmode hl ht =>
    subst ht
    have hroom := room_of_configured htable ha b
    exact blockInv_programLine
      (blockInv_putTach h (hline ▸ hl) hmode hroom (by simp [hidle])) hl req
  | register _ _ _ _ n _ _ _ hp ht =>
    subst ht
    exact blockInv_bindLine h (lineOfPin_lt hw hp) (by simp)
  | trigger _ _ n req _ _ _ hl ht =>
    subst ht
    exact blockInv_programLine h hl req
  | unregister _ n _ _ _ hl ht =>
    subst ht
    have hprogrammed := blockInv_programLine h hl none
    exact blockInv_bindLine hprogrammed (by simpa using hl) (fun _ => rfl)
  | pin _ _ n b _ _ hp ht =>
    have hput := blockInv_putLevel h hp b
    rcases ht with rfl | rfl
    · exact blockInv_setPf hput (lineOfPin_lt hw hp) true
    · exact hput
  | isrNoop _ n _ _ hl _ _ _ ht =>
    subst ht
    exact blockInv_setPf h hl false
  | isrCount _ n o a _ _ hl _ _ _ _ ha ht =>
    subst ht
    exact blockInv_putTach_count (blockInv_setPf h hl false) ha _
  | drainTask _ _ _ ht =>
    subst ht
    refine blockInv_drainOf h (enabledOids_pairwise hrising) (fun oid hm => ?_) false
    obtain ⟨a, ha, hena⟩ := (mem_enabledOids hrising oid).1 hm
    simp [ha, hena]
  | drainStep o left a _ _ hd _ ha ht =>
    subst ht
    have hcleared := blockInv_putTach_count h ha 0
    have ⟨_, _, _, _, hdrain', _⟩ := hcleared
    obtain ⟨-, hleft, henabled⟩ := hdrain' left (by simp [hd])
    exact blockInv_emit_tachResponse (blockInv_drainOf hcleared (hleft.filter _)
      (fun oid hm => henabled oid (List.mem_of_mem_filter hm)) s.wakeFlag) o a.pulseCount
  | response o c _ _ ht =>
    subst ht
    exact blockInv_emit_tachResponse h o c

/-- So does running a frame: its operation, or the fatal error of an illegal one. -/
theorem runFrame_keeps_blockInv {d : Except DecodeReject Instr} {f : Frame} {s t : State}
    (h : BlockInv s) (hr : runFrame d f s = .next t) : BlockInv t := by
  cases d with
  | ok i => exact exec_keeps_blockInv h hr
  | error r =>
    rcases whenRunning_inv hr with rfl | ⟨-, hr⟩
    · exact h
    · cases hr
      exact h

/-- Taking up a command changes the inbox alone. -/
theorem takeCommand_eq_some {s u : State} {f : Frame} (h : takeCommand s = some (f, u)) :
    u = { s with inbox := u.inbox } := by
  unfold takeCommand at h
  split at h
  · cases h
  · split at h
    · cases h
    · cases h
      rfl

/-- Every turn keeps the invariant. -/
theorem takeTurn_keeps_blockInv {turn : Turn} {s t : State} (h : BlockInv s)
    (ht : takeTurn turn s = .next t) : BlockInv t := by
  cases turn with
  | hostSends f =>
    cases ht
    unfold hostSends
    split <;> exact h
  | runCommand =>
    simp only [takeTurn] at ht
    split at ht
    · cases ht
      exact h
    · rename_i f u hu
      have hinv : BlockInv u := by
        rw [takeCommand_eq_some hu]
        exact h
      exact runFrame_keeps_blockInv hinv ht
  | agent f =>
    simp only [takeTurn] at ht
    split at ht
    · cases ht
      exact h
    · exact runFrame_keeps_blockInv h ht
  | hostTakes =>
    cases ht
    unfold hostTakes
    split
    · exact h
    · obtain ⟨hw, htable, hlevel, hlines, hdrain, hout⟩ := h
      exact ⟨hw, htable, hlevel, hlines, hdrain, fun f hf => hout f (List.mem_of_mem_tail hf)⟩
  | reset clock high =>
    cases ht
    obtain ⟨hw, -⟩ := h
    exact blockInv_resetWith hw clock high

/-- Settles O19: a step is a turn over the same block, and each operation is a composition of
updates that keep the invariant. -/
theorem everyStepKeepsTheInvariant : Obligations.EveryStepKeepsTheInvariant := by
  intro s t h ht
  unfold step at ht
  split at ht
  · split at ht <;> cases ht
    exact h
  · rename_i turn rest _
    exact takeTurn_keeps_blockInv (s := { s with turns := rest }) h ht

end Sys2Proof.Machine
end

section
/-! The pin map and the register space: what a read gives and what a write leaves (O25, O36 to O39),
and the reset values (O14). -/

namespace Sys2Proof.Machine

/-! ### The pin map (10_state.md R32, R33) -/

/-- Two entries of the pin map with one line are one entry. -/
theorem pinmap_entry_unique {c : Config} (hc : c.Wf) {e e' : Pin × Line} (he : e ∈ c.pinmap)
    (he' : e' ∈ c.pinmap) (hline : e.2 = e'.2) : e = e' := by
  obtain ⟨-, -, hnodup, -⟩ := hc
  exact List.inj_on_of_nodup_map hnodup he he' hline

/-- A pin has a line exactly when the map lists the pair. -/
theorem lineOfPin_eq_some_iff {c : Config} (hc : c.Wf) (p : Pin) (n : Line) :
    lineOfPin c p = some n ↔ (p, n) ∈ c.pinmap := by
  obtain ⟨-, hrising, -⟩ := hc
  exact lookup_eq_some_iff_mem hrising p n

/-- A line has a pin exactly when the map lists the pair. -/
theorem pinOf_eq_some_iff {c : Config} (hc : c.Wf) (p : Pin) (n : Line) :
    pinOf c n = some p ↔ (p, n) ∈ c.pinmap := by
  simp only [pinOf, Option.map_eq_some_iff]
  constructor
  · rintro ⟨⟨q, k⟩, hfind, rfl⟩
    obtain rfl : k = n := by simpa using List.find?_some hfind
    exact List.mem_of_find?_eq_some hfind
  · intro hmem
    obtain ⟨e, hfind⟩ : ∃ e, c.pinmap.find? (fun e => e.2 == n) = some e :=
      Option.isSome_iff_exists.1 (List.find?_isSome.2 ⟨(p, n), hmem, beq_self_eq_true n⟩)
    have hline : e.2 = n := by simpa using List.find?_some hfind
    have he := pinmap_entry_unique hc (List.mem_of_find?_eq_some hfind) hmem hline
    exact ⟨e, hfind, by rw [he]⟩

/-- Settles O25: both functions read the one list, whose pins and whose lines are distinct. -/
theorem pinMapIsInjective : Obligations.PinMapIsInjective := by
  intro c hc
  refine ⟨fun p q n hp hq => ?_, fun p n => ?_⟩
  · rw [lineOfPin_eq_some_iff hc] at hp hq
    exact congrArg Prod.fst (pinmap_entry_unique hc hp hq rfl)
  · rw [pinOf_eq_some_iff hc, lineOfPin_eq_some_iff hc]

/-! ### Accesses of the registers (20_memory.md R61) -/

@[simp] theorem regRead_eicr (s : State) : regRead 0 2 s = .ok (eicr s) := rfl
@[simp] theorem regRead_eimsk (s : State) : regRead 2 1 s = .ok ((eimsk s).setWidth 16) := rfl
@[simp] theorem regRead_eifr (s : State) : regRead 3 1 s = .ok ((eifr s).setWidth 16) := rfl
@[simp] theorem regWrite_eicr (v : BitVec 16) (s : State) :
    regWrite 0 2 v s = .ok (writeEicr v s) := rfl
@[simp] theorem regWrite_eimsk (v : BitVec 16) (s : State) :
    regWrite 2 1 v s = .ok (writeEimsk (v.setWidth 8) s) := rfl
@[simp] theorem regWrite_eifr (v : BitVec 16) (s : State) :
    regWrite 3 1 v s = .ok (writeEifr (v.setWidth 8) s) := rfl

/-- A line's bit of a written value is a bit of its low byte. -/
theorem getLsbD_setWidth_line (v : BitVec 16) (n : Line) :
    (v.setWidth 8).getLsbD n.val = v.getLsbD n.val := by
  simp

/-! ### What a write does -/

/-- A write of EICR gives each existing line the field that the value holds for it. -/
theorem writeEicr_trig (v : BitVec 16) (s : State) (n : Line) :
    (writeEicr v s).trig[n] =
      if n.val < s.config.nLines then trigField s.config v n else s.trig[n] := by
  simp only [writeEicr, foldSetTrig_trig _ (nodup_lines s.config), mem_lines]

/-- A write of EICR leaves the flag of a line whose field it does not change. -/
theorem writeEicr_pf_of_trig_eq (v : BitVec 16) (s : State) (n : Line)
    (h : (writeEicr v s).trig[n] = s.trig[n]) : (writeEicr v s).pf[n] = s.pf[n] := by
  obtain ⟨-, hflag⟩ := foldSetTrig_pf _ (nodup_lines s.config) (trigField s.config v) s n
  rw [writeEicr_trig] at h
  by_cases hn : n.val < s.config.nLines
  · rw [if_pos hn] at h
    exact hflag (.inr h)
  · exact hflag (.inl (fun hmem => hn (mem_lines.1 hmem)))

/-- A write of EICR clears no flag. -/
theorem writeEicr_pf_mono (v : BitVec 16) (s : State) (n : Line) (h : s.pf[n] = true) :
    (writeEicr v s).pf[n] = true :=
  (foldSetTrig_pf _ (nodup_lines s.config) (trigField s.config v) s n).left h

/-- A write of EIMSK gives each existing line the enable of its bit. -/
theorem writeEimsk_en (v : Byte) (s : State) (n : Line) :
    (writeEimsk v s).en[n] = if n.val < s.config.nLines then v.getLsbD n.val else s.en[n] := by
  simp only [writeEimsk, foldSetEn_en _ (nodup_lines s.config), mem_lines]

/-- A write of EIFR clears the flags of the existing lines whose bits are 1. -/
theorem writeEifr_pf (v : Byte) (s : State) (n : Line) :
    (writeEifr v s).pf[n] =
      if n.val < s.config.nLines then (s.pf[n] && !v.getLsbD n.val) else s.pf[n] := by
  simp only [writeEifr, foldClearPf_pf _ (nodup_lines s.config) (fun n => v.getLsbD n.val),
    mem_lines]

/-- Settles O36: `eicr_bits` for the read, and the field, the flags and the frame of the write. -/
theorem eicrHoldsTheTriggerFields : Obligations.EicrHoldsTheTriggerFields := by
  refine ⟨by decide, fun s n hw hn => ?_, fun s v _ => ⟨writeEicr v s, regWrite_eicr v s, ?_⟩,
    fun c clock high => (registers_resetWith c clock high).left⟩
  · obtain ⟨-, -, -, -, hbits, -⟩ := hw
    exact ⟨regRead_eicr s, eicr_bits s hbits n hn⟩
  · refine ⟨fun n hn => ?_, fun n hn => ?_, writeEicr_pf_of_trig_eq v s, writeEicr_pf_mono v s,
      foldSetTrig_frame _ _ s⟩
    · rw [writeEicr_trig, if_pos hn]
      exact trigField_bit s.config v n
    · rw [writeEicr_trig, if_neg (Nat.not_lt.2 hn)]

/-- Settles O37: `eimsk_bit` for the read, and the enables and the frame of the write. -/
theorem eimskHoldsTheEnables : Obligations.EimskHoldsTheEnables := by
  refine ⟨fun s n hn => ⟨regRead_eimsk s, eimsk_bit s n hn⟩,
    fun s v => ⟨writeEimsk (v.setWidth 8) s, regWrite_eimsk v s, fun n hn => ?_, fun n hn => ?_,
      foldSetEn_frame _ _ s⟩,
    fun c clock high => (registers_resetWith c clock high).right.left⟩
  · rw [writeEimsk_en, if_pos hn, getLsbD_setWidth_line]
  · rw [writeEimsk_en, if_neg (Nat.not_lt.2 hn)]

/-- Settles O38: `eifr_bit` for the read, and the flags and the frame of the write. -/
theorem eifrIsWriteOneToClear : Obligations.EifrIsWriteOneToClear := by
  refine ⟨fun s n hn => ⟨regRead_eifr s, eifr_bit s n hn⟩,
    fun s v => ⟨writeEifr (v.setWidth 8) s, regWrite_eifr v s, fun n hn => ?_, fun n hn => ?_,
      foldClearPf_frame _ (fun n => (v.setWidth 8).getLsbD n.val) s⟩,
    fun c clock high => (registers_resetWith c clock high).right.right⟩
  · rw [writeEifr_pf, if_pos hn, getLsbD_setWidth_line]
  · rw [writeEifr_pf, if_neg (Nat.not_lt.2 hn)]

/-! ### Reserved bits (10_state.md R30) -/

/-- The two positions of an existing line's field are trigger-mode bits. -/
theorem modeBit_mem_modeBits {c : Config} {n : Line} (h : n ∈ c.lines) :
    c.modeBit0[n] ∈ c.modeBits ∧ c.modeBit1[n] ∈ c.modeBits :=
  ⟨List.mem_append_left _ (List.mem_map.2 ⟨n, h, rfl⟩),
    List.mem_append_right _ (List.mem_map.2 ⟨n, h, rfl⟩)⟩

/-- A bit of EICR at no line's position reads 0. -/
theorem eicr_bit_reserved {s : State} {b : Fin 16} (h : b ∉ s.config.modeBits) :
    (eicr s).getLsbD b.val = false := by
  rw [eicr_bit, List.any_eq_false]
  intro n hn
  obtain ⟨hm0, hm1⟩ := modeBit_mem_modeBits hn
  have h0 : b.val ≠ s.config.modeBit0[n].val := fun e => h (Fin.ext e ▸ hm0)
  have h1 : b.val ≠ s.config.modeBit1[n].val := fun e => h (Fin.ext e ▸ hm1)
  simp only [beq_false_of_ne h0, beq_false_of_ne h1, Bool.and_false, Bool.or_self,
    Bool.false_eq_true, not_false_eq_true]

/-- A register that holds one bit per line reads 0 at or above `N_LINES`. -/
theorem orLines_bitAt_reserved (c : Config) (field : Line → Bool) {b : Nat} (h : c.nLines ≤ b) :
    (orLines c (fun n => bitAt 8 (field n) n.val)).getLsbD b = false := by
  rw [orLines_bit, List.any_eq_false]
  intro n hn
  have hne : b ≠ n.val := by
    have := mem_lines.1 hn
    omega
  rw [bitAt_bit n.isLt, beq_false_of_ne hne, Bool.and_false]
  exact Bool.false_ne_true

/-- A write of EICR depends on the trigger-mode bits of the value alone. -/
theorem writeEicr_congr {s : State} {v v' : BitVec 16}
    (h : ∀ b ∈ s.config.modeBits, v.getLsbD b.val = v'.getLsbD b.val) :
    writeEicr v s = writeEicr v' s := by
  refine foldl_congr_mem _ _ _ _ fun n hn t => ?_
  obtain ⟨hm0, hm1⟩ := modeBit_mem_modeBits hn
  simp only [trigField, h _ hm0, h _ hm1]

/-- Settles O39: the bits of a register are those of the existing lines, for a read and a write. -/
theorem reservedRegisterBits : Obligations.ReservedRegisterBits := by
  refine ⟨fun s b hb => eicr_bit_reserved hb,
    fun s b hb => ⟨orLines_bitAt_reserved s.config _ hb, orLines_bitAt_reserved s.config _ hb⟩,
    fun s v v' h => congrArg Except.ok (writeEicr_congr h), fun s v v' h => ?_⟩
  have hbit : ∀ n ∈ s.config.lines, (v.setWidth 8).getLsbD n.val = (v'.setWidth 8).getLsbD n.val :=
    fun n hn => by simpa only [getLsbD_setWidth_line] using h n.val (mem_lines.1 hn)
  refine ⟨congrArg Except.ok (foldl_congr_mem _ _ _ _ fun n hn t => ?_),
    congrArg Except.ok (foldl_congr_mem _ _ _ _ fun n hn t => ?_)⟩
  · rw [hbit n hn]
  · rw [hbit n hn]

/-! ### Reset values (10_state.md R51) -/

/-- A list of one value per listed key gives the value of each listed key. -/
theorem lookup_map_of_mem {w : Nat} {α β : Type} (g : BitVec w → β) {m : List (BitVec w × α)}
    {k : BitVec w} (h : k ∈ m.map Prod.fst) :
    (m.map (fun e => (e.1, g e.1))).lookup k = some (g k) := by
  induction m with
  | nil => simp at h
  | cons e rest ih =>
    by_cases hk : k = e.1
    · subst hk
      simp
    · have hrest : k ∈ rest.map Prod.fst := by simpa [hk] using h
      simp [List.lookup, beq_false_of_ne hk, ih hrest]

/-- A mapped pin has the level drawn at reset. -/
theorem levelAt_resetWith {c : Config} {p : Pin} (hp : lineOfPin c p ≠ none) (clock : Word)
    (high : List Pin) : levelAt (State.resetWith c clock high) p = high.contains p := by
  have hkey : p ∈ c.pinmap.map Prod.fst :=
    (lookup_isSome_iff c.pinmap p).1 (Option.isSome_iff_ne_none.2 hp)
  have hlevel : (State.resetWith c clock high).level.lookup p = some (high.contains p) :=
    lookup_map_of_mem _ hkey
  simp [levelAt, hlevel]

/-- Settles O14: each row of rule R51's table, the registers and the levels by their own lemmas. -/
theorem resetValues : Obligations.ResetValues := by
  intro c clock high
  obtain ⟨heicr, heimsk, heifr⟩ := registers_resetWith c clock high
  refine ⟨fun n => ?_, heicr, heimsk, heifr, fun p hp => levelAt_resetWith hp clock high, ?_⟩
  · simp [State.resetWith]
  · exact ⟨fun _ => rfl, rfl, rfl, rfl, rfl, rfl, rfl, rfl, rfl⟩

end Sys2Proof.Machine
end

section
/-! Which operations write which state: each statement follows from `exec_cases` (O52, O59, O60). -/

namespace Sys2Proof.Machine

/-- Settles O59, one case per effect of an operation. -/
theorem lineFieldWriters : Obligations.LineFieldWriters := by
  intro i s t h
  cases exec_cases i s t h with
  | same ht | fatal _ _ _ ht | update _ _ _ _ _ ht | tick _ _ ht | expiry _ _ _ _ _ _ ht
  | drainTask _ _ _ ht | drainStep _ _ _ _ _ _ _ _ ht | response _ _ _ _ ht =>
    subst ht
    simp
  | config _ _ _ hi _ _ _ _ _ ht | mode _ _ _ _ _ hi _ _ _ _ _ _ _ ht
  | register _ _ _ _ _ hi _ _ _ ht | trigger _ _ _ _ hi _ _ _ ht | unregister _ _ hi _ _ _ ht
  | isrNoop _ _ hi _ _ _ _ _ ht | isrCount _ _ _ _ hi _ _ _ _ _ _ _ ht =>
    subst ht hi
    simp
  | pin _ _ _ _ hi _ _ ht =>
    subst hi
    rcases ht with rfl | rfl <;> simp

/-- Settles O60, one case per effect of an operation. -/
theorem environmentAndTimerWriters : Obligations.EnvironmentAndTimerWriters := by
  intro i s t h
  cases exec_cases i s t h with
  | same ht | fatal _ _ _ ht | config _ _ _ _ _ _ _ _ _ ht | mode _ _ _ _ _ _ _ _ _ _ _ _ _ ht
  | register _ _ _ _ _ _ _ _ _ ht | trigger _ _ _ _ _ _ _ _ ht | unregister _ _ _ _ _ _ ht
  | isrNoop _ _ _ _ _ _ _ _ ht | isrCount _ _ _ _ _ _ _ _ _ _ _ _ ht | response _ _ _ _ ht =>
    subst ht
    simp
  | update _ _ hi _ _ ht | tick hi _ ht | expiry _ hi _ _ _ _ ht | drainTask hi _ _ ht
  | drainStep _ _ _ hi _ _ _ _ ht =>
    subst ht hi
    simp
  | pin _ _ _ _ hi _ _ ht =>
    subst hi
    rcases ht with rfl | rfl <;> simp

/-! ### The pulse counters -/

/-- What operation `i` may make of the pulse counter `a` of `oid`: the same line, and no other count
or mode but by the operations that write them (10_state.md R35 to R38). -/
abbrev InstanceKept (i : Instr) (oid : Oid) (a b : Tach) : Prop :=
  b.line = a.line ∧
  (b.pulseCount ≠ a.pulseCount → (∃ line, i = .lineIsr line) ∨ i = .drainStep oid) ∧
  (b.enabled ≠ a.enabled ∨ b.activeMode ≠ a.activeMode → ∃ mode, i = .setTachIrqState oid mode)

theorem instanceKept_refl (i : Instr) (oid : Oid) (a : Tach) : InstanceKept i oid a a :=
  ⟨rfl, by simp, by simp⟩

/-- An operation that leaves the table keeps every pulse counter. -/
theorem kept_of_tach_eq {s t : State} {oid : Oid} {a : Tach} (i : Instr) (ht : t.tach = s.tach)
    (ha : tachOf s oid = some a) : ∃ b, tachOf t oid = some b ∧ InstanceKept i oid a b :=
  ⟨a, (tachOf_congr ht oid).trans ha, instanceKept_refl i oid a⟩

/-- An operation that writes the entry of `o` alone keeps every counter if it keeps that one. -/
theorem kept_of_tach_putTach {s t : State} {i : Instr} {o oid : Oid} {a b : Tach}
    (ht : t.tach = (putTach o b s).tach) (ha : tachOf s oid = some a)
    (hb : o = oid → InstanceKept i oid a b) :
    ∃ c, tachOf t oid = some c ∧ InstanceKept i oid a c := by
  rw [tachOf_congr ht]
  by_cases e : oid = o
  · subst e
    exact ⟨b, tachOf_putTach_self oid b s, hb rfl⟩
  · exact ⟨a, (tachOf_putTach_ne e b s).trans ha, instanceKept_refl i oid a⟩

/-- Settles O52: an operation leaves the table or writes one entry, a new one or one on its line. -/
theorem instancesAreKept : Obligations.InstancesAreKept := by
  intro i s t oid a h ha
  cases exec_cases i s t h with
  | same ht | fatal _ _ _ ht | update _ _ _ _ _ ht | register _ _ _ _ _ _ _ _ _ ht
  | trigger _ _ _ _ _ _ _ _ ht | unregister _ _ _ _ _ _ ht | tick _ _ ht
  | isrNoop _ _ _ _ _ _ _ _ ht | expiry _ _ _ _ _ _ ht | drainTask _ _ _ ht | response _ _ _ _ ht =>
    exact kept_of_tach_eq i (by simp [ht]) ha
  | pin _ _ _ _ _ _ _ ht =>
    exact kept_of_tach_eq i (by rcases ht with rfl | rfl <;> rfl) ha
  | config o _ n _ _ _ hnew _ _ ht =>
    refine kept_of_tach_putTach (o := o) (b := newTach n) (by simp [ht]) ha fun e => ?_
    rw [← e, hnew] at ha
    cases ha
  | mode o m a' req b hi _ _ ha' hline hcount _ _ ht =>
    refine kept_of_tach_putTach (o := o) (b := b) (by simp [ht]) ha fun e => ?_
    subst e
    obtain rfl : a' = a := Option.some.inj (ha'.symm.trans ha)
    exact ⟨hline, fun hne => absurd hcount hne, fun _ => ⟨m, hi⟩⟩
  | isrCount l _ o a' hi _ _ _ _ _ _ ha' ht =>
    refine kept_of_tach_putTach (o := o) (by rw [ht]; rfl) ha fun e => ?_
    subst e
    obtain rfl : a' = a := Option.some.inj (ha'.symm.trans ha)
    exact ⟨rfl, fun _ => .inl ⟨l, hi⟩, by simp⟩
  | drainStep o _ a' hi _ _ _ ha' ht =>
    refine kept_of_tach_putTach (o := o) (by rw [ht]; rfl) ha fun e => ?_
    subst e
    obtain rfl : a' = a := Option.some.inj (ha'.symm.trans ha)
    exact ⟨rfl, fun _ => .inr hi, by simp⟩

end Sys2Proof.Machine
end

section
/-! The accesses of the register space: the halves of EICR (O40), and which accesses have a meaning
(O41), with the fact that every operation answers a next state. -/

namespace Sys2Proof.Machine

/-! ### The halves of EICR (20_memory.md R61, R62) -/

@[simp] theorem regRead_eicrLow (s : State) :
    regRead 0 1 s = .ok (((eicr s).extractLsb' 0 8).setWidth 16) := rfl
@[simp] theorem regRead_eicrHigh (s : State) :
    regRead 1 1 s = .ok (((eicr s).extractLsb' 8 8).setWidth 16) := rfl
@[simp] theorem regWrite_eicrLow (v : BitVec 16) (s : State) :
    regWrite 0 1 v s = .ok (writeEicr ((eicr s).extractLsb' 8 8 ++ v.extractLsb' 0 8) s) := rfl
@[simp] theorem regWrite_eicrHigh (v : BitVec 16) (s : State) :
    regWrite 1 1 v s = .ok (writeEicr (v.extractLsb' 0 8 ++ (eicr s).extractLsb' 0 8) s) := rfl

/-- Settles O40: a one-byte write is the two-byte write of the joined halves. -/
theorem eicrHalves : Obligations.EicrHalves := fun s v =>
  ⟨regRead_eicrLow s, regRead_eicrHigh s,
    (regWrite_eicrLow v s).trans (regWrite_eicr _ s).symm,
    (regWrite_eicrHigh v s).trans (regWrite_eicr _ s).symm⟩

/-! ### The accesses with a meaning (20_memory.md R63) -/

/-- The accesses of R63: 1 byte at an offset 0x00 to 0x03, or 2 bytes at 0x00. -/
abbrev AccessHasMeaning (offset width : Nat) : Prop :=
  (width = 1 ∧ offset ≤ 3) ∨ (width = 2 ∧ offset = 0)

/-- An access with a meaning is answered: it is one of the five that have an equation. -/
theorem access_ok {offset width : Nat} (h : AccessHasMeaning offset width) (v : BitVec 16)
    (s : State) :
    (∃ r, regRead offset width s = .ok r) ∧ ∃ t, regWrite offset width v s = .ok t := by
  obtain ⟨rfl, hoffset⟩ | ⟨rfl, rfl⟩ := h
  · obtain rfl | rfl | rfl | rfl : offset = 0 ∨ offset = 1 ∨ offset = 2 ∨ offset = 3 := by omega
    · exact ⟨⟨_, regRead_eicrLow s⟩, _, regWrite_eicrLow v s⟩
    · exact ⟨⟨_, regRead_eicrHigh s⟩, _, regWrite_eicrHigh v s⟩
    · exact ⟨⟨_, regRead_eimsk s⟩, _, regWrite_eimsk v s⟩
    · exact ⟨⟨_, regRead_eifr s⟩, _, regWrite_eifr v s⟩
  · exact ⟨⟨_, regRead_eicr s⟩, _, regWrite_eicr v s⟩

theorem regRead_refused {offset width : Nat} (h : ¬ AccessHasMeaning offset width) (s : State) :
    regRead offset width s = .error (.registerAccess offset width) := by
  rw [regRead, if_neg, if_neg, if_neg, if_neg, if_neg] <;> omega

theorem regWrite_refused {offset width : Nat} (h : ¬ AccessHasMeaning offset width)
    (v : BitVec 16) (s : State) :
    regWrite offset width v s = .error (.registerAccess offset width) := by
  rw [regWrite, if_neg, if_neg, if_neg, if_neg, if_neg] <;> omega

/-! ### Every operation answers a next state -/

/-- Settling answers a next state, whatever the operation computed. -/
theorem settle_total (f : Frame) (s : State) (r : Except FaultCode State) :
    ∃ t, settle f s r = .next t := by
  obtain ⟨t, -, h⟩ | ⟨c, -, h⟩ := settle_next f s r
  · exact ⟨t, h⟩
  · exact ⟨raiseFatal c f s, h⟩

/-- A guarded step answers a next state when the step does. -/
theorem whenRunning_total (s : State) {r : Result} (hr : ∃ t, r = .next t) :
    ∃ t, whenRunning s r = .next t := by
  obtain ⟨-, h⟩ | ⟨-, h⟩ := whenRunning_cases s r
  · rwa [h]
  · exact ⟨s, h⟩

/-- A guarded task-context step answers a next state when the step does. -/
theorem whenTask_total (s : State) {r : Result} (hr : ∃ t, r = .next t) :
    ∃ t, whenTask s r = .next t := by
  obtain ⟨-, h⟩ | ⟨-, h⟩ := whenTask_cases s r
  · rwa [h]
  · exact ⟨s, h⟩

/-- An illegal frame answers a next state. -/
theorem illegalFrame_total (f : Frame) (s : State) : ∃ t, illegalFrame f s = .next t :=
  whenRunning_total s ⟨_, rfl⟩

/-- Every operation answers a next state from every state. -/
theorem exec_total (i : Instr) (s : State) : ∃ t, exec i s = .next t := by
  cases i with
  | configTachometer _ _ | setTachIrqState _ _ | lineSetTriggerMode _ _ | lineUnregister _ =>
    exact whenTask_total s (settle_total _ s _)
  | updateTachTimer _ _ => exact whenTask_total s ⟨_, rfl⟩
  | clockTick | tachResponse _ _ => exact whenRunning_total s ⟨_, rfl⟩
  | lineRegister _ _ _ =>
    simp only [exec, execLineRegister]
    split
    · exact illegalFrame_total _ s
    · exact whenTask_total s (settle_total _ s _)
  | pinChange _ _ =>
    simp only [exec, execPinChange]
    split
    · exact illegalFrame_total _ s
    · exact whenRunning_total s ⟨_, rfl⟩
  | lineIsr _ =>
    refine whenRunning_total s ?_
    split
    · exact settle_total _ s _
    · split
      · exact settle_total _ s _
      · exact ⟨s, rfl⟩
  | timerIsr =>
    refine whenRunning_total s ?_
    split_ifs <;> exact ⟨_, rfl⟩
  | drainTask =>
    refine whenTask_total s ?_
    split <;> exact ⟨_, rfl⟩
  | drainStep _ =>
    refine whenRunning_total s ?_
    split
    · exact ⟨s, rfl⟩
    · split_ifs
      · split <;> exact ⟨_, rfl⟩
      · exact ⟨s, rfl⟩

theorem exec_ne_refused (i : Instr) (s : State) (r : Refusal) : exec i s ≠ .refused r := by
  obtain ⟨t, ht⟩ := exec_total i s
  simp [ht]

/-- Settles O41: the five equations where an access has a meaning, the last branch where it has none,
and no operation refused, since each answers a next state. -/
theorem otherRegisterAccessesAreRefused : Obligations.OtherRegisterAccessesAreRefused :=
  fun s _ _ v =>
    ⟨fun h => access_ok h v s, fun h => ⟨regRead_refused h s, regWrite_refused h v s⟩,
      fun i r => exec_ne_refused i s r⟩

end Sys2Proof.Machine
end

section
/-! The encoding: a frame decodes to an operation exactly when it is that operation's frame (O1,
O2), so the legal frames are those of the tables (O3); what an illegal frame and a host frame do when
they are executed (O4, O7); and the bytes of a frame (O6). -/

namespace Sys2Proof.Machine

/-! ### Decoding a frame that was encoded (30_encoding.md R81, R85, R86) -/

/-- The decoder reads a well-formed operation back from its frame. -/
theorem decode_encode {i : Instr} (hi : i.wellFormed = true) : decode (encode i) = .ok i := by
  cases i with
  | configTachometer _ _ =>
    exact (decode_configTachometer (op_packFrame _ _ _ _ _)).trans (by simp)
  | updateTachTimer _ _ =>
    exact (decode_updateTachTimer (op_packFrame _ _ _ _ _)).trans (by simp)
  | setTachIrqState _ _ =>
    exact (decode_setTachIrqState (op_packFrame _ _ _ _ _)).trans (by simp)
  | lineRegister _ _ _ =>
    have hsel := of_decide_eq_true hi
    exact (decode_lineRegister (op_packFrame _ _ _ _ _)).trans (by simp [hsel])
  | lineSetTriggerMode _ _ =>
    exact (decode_lineSetTriggerMode (op_packFrame _ _ _ _ _)).trans (by simp)
  | lineUnregister _ =>
    exact (decode_lineUnregister (op_packFrame _ _ _ _ _)).trans (by simp)
  | pinChange _ _ =>
    have hlevel := of_decide_eq_true hi
    exact (decode_pinChange (op_packFrame _ _ _ _ _)).trans (by simp [hlevel])
  | clockTick => exact (decode_clockTick (op_packFrame _ _ _ _ _)).trans (by simp)
  | lineIsr _ => exact (decode_lineIsr (op_packFrame _ _ _ _ _)).trans (by simp)
  | timerIsr => exact (decode_timerIsr (op_packFrame _ _ _ _ _)).trans (by simp)
  | drainTask => exact (decode_drainTask (op_packFrame _ _ _ _ _)).trans (by simp)
  | drainStep _ => exact (decode_drainStep (op_packFrame _ _ _ _ _)).trans (by simp)
  | tachResponse oid count => exact decode_encode_tachResponse oid count

/-- Settles O1, one operation at a time. -/
theorem decodeOfEncodeIsTheInstruction : Obligations.DecodeOfEncodeIsTheInstruction :=
  fun _ hi => decode_encode hi

/-! ### Encoding what a frame decodes to (30_encoding.md R81, R86, R87) -/

/-- A frame is a packing exactly when its fields are the packed ones and its RSV is 0. -/
theorem packFrame_eq_iff {op f1 f2 : Byte} {arg0 arg1 : Word} {f : Frame} :
    packFrame op f1 f2 arg0 arg1 = f ↔
      f.op = op ∧ f.f1 = f1 ∧ f.f2 = f2 ∧ f.rsv = 0 ∧ f.arg0 = arg0 ∧ f.arg1 = arg1 := by
  constructor
  · rintro rfl
    simp
  · rintro ⟨rfl, rfl, rfl, hrsv, rfl, rfl⟩
    exact packFrame_fields hrsv

/-- What a frame decodes to has that frame, when its opcode's operation does wherever the reserved
fields are 0. -/
theorem encode_of_whenReservedZero {f : Frame} {i j : Instr} {reservedZero : Bool}
    (hj : decode f = .ok j) (hd : decode f = whenReservedZero reservedZero i)
    (hi : reservedZero = true → encode i = f ∧ i.wellFormed = true) :
    encode j = f ∧ j.wellFormed = true := by
  obtain ⟨hzero, rfl⟩ := whenReservedZero_ok_iff.1 (hd.symm.trans hj)
  exact hi hzero

/-- A frame that decodes has a listed opcode. -/
theorem opcodeListed_of_decode {f : Frame} {i : Instr} (h : decode f = .ok i) :
    OpcodeListed f.op := by
  by_contra hop
  simp [decode_reservedOpcode hop] at h

/-- A line_register that decodes has an hsel of at most 1. -/
theorem hsel_of_decode {f : Frame} {i : Instr} (hop : f.op = 0x10#8) (h : decode f = .ok i) :
    f.f2 ≤ 1#8 := by
  by_contra hsel
  simp [decode_lineRegister hop, hsel] at h

/-- A pin_change that decodes has a level of at most 1. -/
theorem level_of_decode {f : Frame} {i : Instr} (hop : f.op = 0x20#8) (h : decode f = .ok i) :
    f.f2 ≤ 1#8 := by
  by_contra hlevel
  simp [decode_pinChange hop, hlevel] at h

/-- The decoder drops no bit: its operation, well-formed, has the frame it was read from. -/
theorem encode_of_decode {f : Frame} {i : Instr} (h : decode f = .ok i) :
    encode i = f ∧ i.wellFormed = true := by
  rcases opcodeListed_of_decode h with
    hop | hop | hop | hop | hop | hop | hop | hop | hop | hop | hop | hop | hop
  · exact encode_of_whenReservedZero h (decode_configTachometer hop) fun hzero =>
      ⟨packFrame_eq_iff.2 (by simpa [hop, and_assoc] using hzero), rfl⟩
  · exact encode_of_whenReservedZero h (decode_updateTachTimer hop) fun hzero =>
      ⟨packFrame_eq_iff.2 (by simpa [hop, and_assoc] using hzero), rfl⟩
  · exact encode_of_whenReservedZero h (decode_setTachIrqState hop) fun hzero =>
      ⟨packFrame_eq_iff.2 (by simpa [hop, and_assoc] using hzero), rfl⟩
  · have hsel := hsel_of_decode hop h
    exact encode_of_whenReservedZero h ((decode_lineRegister hop).trans (if_pos hsel)) fun hzero =>
      ⟨packFrame_eq_iff.2 (by simpa [hop, and_assoc] using hzero), decide_eq_true hsel⟩
  · exact encode_of_whenReservedZero h (decode_lineSetTriggerMode hop) fun hzero =>
      ⟨packFrame_eq_iff.2 (by simpa [hop, and_assoc] using hzero), rfl⟩
  · exact encode_of_whenReservedZero h (decode_lineUnregister hop) fun hzero =>
      ⟨packFrame_eq_iff.2 (by simpa [hop, and_assoc] using hzero), rfl⟩
  · have hlevel := level_of_decode hop h
    exact encode_of_whenReservedZero h ((decode_pinChange hop).trans (if_pos hlevel)) fun hzero =>
      ⟨packFrame_eq_iff.2 (by simpa [hop, and_assoc] using hzero), decide_eq_true hlevel⟩
  · exact encode_of_whenReservedZero h (decode_clockTick hop) fun hzero =>
      ⟨packFrame_eq_iff.2 (by simpa [hop, and_assoc] using hzero), rfl⟩
  · exact encode_of_whenReservedZero h (decode_lineIsr hop) fun hzero =>
      ⟨packFrame_eq_iff.2 (by simpa [hop, and_assoc] using hzero), rfl⟩
  · exact encode_of_whenReservedZero h (decode_timerIsr hop) fun hzero =>
      ⟨packFrame_eq_iff.2 (by simpa [hop, and_assoc] using hzero), rfl⟩
  · exact encode_of_whenReservedZero h (decode_drainTask hop) fun hzero =>
      ⟨packFrame_eq_iff.2 (by simpa [hop, and_assoc] using hzero), rfl⟩
  · exact encode_of_whenReservedZero h (decode_drainStep hop) fun hzero =>
      ⟨packFrame_eq_iff.2 (by simpa [hop, and_assoc] using hzero), rfl⟩
  · exact encode_of_whenReservedZero h (decode_tachResponse hop) fun hzero =>
      ⟨packFrame_eq_iff.2 (by simpa [hop, and_assoc] using hzero), rfl⟩

/-- Settles O2, one opcode at a time. -/
theorem encodeOfDecodeIsTheFrame : Obligations.EncodeOfDecodeIsTheFrame :=
  fun _ _ h => encode_of_decode h

/-! ### The legal frames (30_encoding.md R85 to R87) -/

/-- A frame decodes exactly when it is the frame of a well-formed operation. -/
theorem decode_ok_iff {f : Frame} {i : Instr} :
    decode f = .ok i ↔ encode i = f ∧ i.wellFormed = true := by
  constructor
  · exact encode_of_decode
  · rintro ⟨rfl, hi⟩
    exact decode_encode hi

/-- A frame is legal when the reserved fields of its opcode are 0. -/
theorem legal_of_whenReservedZero {f : Frame} {i : Instr} {reservedZero : Bool}
    (hd : decode f = whenReservedZero reservedZero i) (hzero : reservedZero = true) :
    ∃ i, decode f = .ok i :=
  ⟨i, hd.trans (whenReservedZero_ok_iff.2 ⟨hzero, rfl⟩)⟩

/-- Settles O3: a legal frame is an operation's own, whose fields are those of a row, and each
opcode of a row decodes where the row's reserved fields are 0. -/
theorem legalFramesAreTheTables : Obligations.LegalFramesAreTheTables := by
  intro f
  constructor
  · rintro ⟨i, h⟩
    obtain ⟨rfl, hi⟩ := decode_ok_iff.1 h
    cases i with
    | lineRegister _ _ _ | pinChange _ _ =>
      simpa [encode, Instr.wellFormed, BitVec.le_def] using hi
    | _ => simp [encode]
  · rintro (⟨hop | hop, hf2, hrsv, harg1⟩ | ⟨hop, hf1, hf2, hrsv⟩ |
      ⟨hop | hop, hrsv, harg0, harg1⟩ | ⟨hop, hsel, hrsv, harg1⟩ |
      ⟨hop | hop | hop, hf2, hrsv, harg0, harg1⟩ | ⟨hop, hf1, hlevel, hrsv, harg1⟩ |
      ⟨hop | hop | hop, hf1, hf2, hrsv, harg0, harg1⟩)
    · exact legal_of_whenReservedZero (decode_configTachometer hop) (by simp [hf2, hrsv, harg1])
    · exact legal_of_whenReservedZero (decode_tachResponse hop) (by simp [hf2, hrsv, harg1])
    · exact legal_of_whenReservedZero (decode_updateTachTimer hop) (by simp [hf1, hf2, hrsv])
    · exact legal_of_whenReservedZero (decode_setTachIrqState hop) (by simp [hrsv, harg0, harg1])
    · exact legal_of_whenReservedZero (decode_lineSetTriggerMode hop)
        (by simp [hrsv, harg0, harg1])
    · exact legal_of_whenReservedZero ((decode_lineRegister hop).trans (if_pos hsel))
        (by simp [hrsv, harg1])
    · exact legal_of_whenReservedZero (decode_lineUnregister hop)
        (by simp [hf2, hrsv, harg0, harg1])
    · exact legal_of_whenReservedZero (decode_lineIsr hop) (by simp [hf2, hrsv, harg0, harg1])
    · exact legal_of_whenReservedZero (decode_drainStep hop) (by simp [hf2, hrsv, harg0, harg1])
    · exact legal_of_whenReservedZero ((decode_pinChange hop).trans (if_pos hlevel))
        (by simp [hf1, hrsv, harg1])
    · exact legal_of_whenReservedZero (decode_clockTick hop)
        (by simp [hf1, hf2, hrsv, harg0, harg1])
    · exact legal_of_whenReservedZero (decode_timerIsr hop)
        (by simp [hf1, hf2, hrsv, harg0, harg1])
    · exact legal_of_whenReservedZero (decode_drainTask hop)
        (by simp [hf1, hf2, hrsv, harg0, harg1])

/-! ### Executing an illegal frame, and a frame from the host (30_encoding.md R87, R88) -/

/-- A frame that its decoder rejects, by whichever reason, raises InvalidCommand while the block
runs. -/
theorem runFrame_error {s : State} (hs : Running s) (r : DecodeReject) (f : Frame) :
    runFrame (.error r) f s = Fatal .invalidCommand f s :=
  whenRunning_of_running hs _

/-- Settles O4: a rejected frame raises InvalidCommand. -/
theorem illegalFramesAreFatal : Obligations.IllegalFramesAreFatal := fun _ f r hs hd =>
  hd ▸ runFrame_error hs r f

theorem hostSpace_iff (f : Frame) :
    f.hostSpace = true ↔ f.op = 0x01 ∨ f.op = 0x02 ∨ f.op = 0x03 := by
  simp [Frame.hostSpace, or_assoc]

theorem decodeHost_of_hostSpace {f : Frame} (h : f.hostSpace = true) : decodeHost f = decode f :=
  if_pos h

/-- The host channel rejects every frame outside the host-command space, legal or not. -/
theorem decodeHost_of_not_hostSpace {f : Frame} (h : ¬ f.hostSpace = true) :
    ∃ r, decodeHost f = .error r := by
  rw [decodeHost, if_neg h]
  cases decode f with
  | ok _ => exact ⟨_, rfl⟩
  | error r => exact ⟨r, rfl⟩

/-- Settles O7: in the host-command space the channel decodes as any frame is decoded, and outside
it the channel rejects. -/
theorem hostChannelAcceptsHostSpaceOnly : Obligations.HostChannelAcceptsHostSpaceOnly := by
  intro s f hs
  constructor
  · intro hop
    rw [decodeHost_of_hostSpace ((hostSpace_iff f).2 hop)]
  · intro h1 h2 h3
    have hspace : ¬ f.hostSpace = true :=
      (hostSpace_iff f).not.2 (not_or.2 ⟨h1, not_or.2 ⟨h2, h3⟩⟩)
    obtain ⟨r, hr⟩ := decodeHost_of_not_hostSpace hspace
    rw [hr, runFrame_error hs]

/-! ### The bytes of a frame (30_encoding.md R82) -/

/-- The first twelve bytes of a byte string that begins with a frame's bytes make that frame. -/
theorem frameOfBytes_toBytes_append (f : Frame) (rest : List Byte) :
    frameOfBytes (f.toBytes ++ rest) = some (f, rest) :=
  congrArg (fun g => some (g, rest)) (bytes_append f)

theorem toBytes_getElem? (f : Frame) {k : Nat} (hk : k < 12) :
    f.toBytes[k]? = some (f.byte k) := by
  interval_cases k <;> rfl

/-- Four neighbouring bytes of a frame, the last one most significant, are one word of it. -/
theorem extract_word (f : Frame) (a : Nat) :
    f.extractLsb' (a + 24) 8 ++ f.extractLsb' (a + 16) 8 ++ f.extractLsb' (a + 8) 8 ++
      f.extractLsb' a 8 = f.extractLsb' a 32 := by
  rw [extract_append f (a + 16) 8 8, extract_append f (a + 8) 16 8, extract_append f a 24 8]

/-- Settles O6: the words by `extract_word`, the rule's example by evaluation. -/
theorem frameBytesAreLittleEndian : Obligations.FrameBytesAreLittleEndian :=
  ⟨frameOfBytes_toBytes_append, fun f _ hk => toBytes_getElem? f hk,
    fun f => ⟨rfl, rfl, rfl, rfl, extract_word f 32, extract_word f 64⟩, by decide, by decide⟩

end Sys2Proof.Machine
end

section
/-! The trigger-mode sequence on the registers: each access of 40_line_controller.md R111's
register-level form is one update of the line, so the two forms agree (O29). -/

namespace Sys2Proof.Machine

/-! ### Bits of the written values -/

theorem getLsbD_one_shiftLeft {w b : Nat} (hb : b < w) (k : Nat) :
    (1#w <<< b).getLsbD k = (k == b) := by
  simpa [bitAt] using bitAt_bit (v := true) (k := k) hb

theorem getLsbD_and_not {w : Nat} (v mask : BitVec w) (k : Nat) :
    (v &&& ~~~mask).getLsbD k = (v.getLsbD k && !mask.getLsbD k) := by
  by_cases hk : k < w
  · simp [hk]
  · simp [BitVec.getLsbD_of_ge v k (by omega)]

theorem line_val_beq (k n : Line) : (k.val == n.val) = decide (k = n) := by
  rw [beq_eq_decide, decide_eq_decide, Fin.val_inj]

/-- A trigger-mode field is determined by its two bits of EICR. -/
theorem trigField_eq {c : Config} {v : BitVec 16} {k : Line} {x : BitVec 2}
    (h0 : v.getLsbD c.modeBit0[k].val = x.getLsbD 0)
    (h1 : v.getLsbD c.modeBit1[k].val = x.getLsbD 1) : trigField c v k = x := by
  obtain ⟨hb0, hb1⟩ := trigField_bit c v k
  exact trig_ext (hb0.trans h0) (hb1.trans h1)

/-- Of the positions of two lines' fields in EICR, the like ones agree when the lines do and the
unlike ones never. -/
theorem modeBit_beq {c : Config} (hc : c.modeBits.Nodup) {k n : Line} (hk : k.val < c.nLines)
    (hn : n.val < c.nLines) :
    (c.modeBit0[k].val == c.modeBit0[n].val) = decide (k = n) ∧
    (c.modeBit1[k].val == c.modeBit1[n].val) = decide (k = n) ∧
    (c.modeBit0[k].val == c.modeBit1[n].val) = false ∧
    (c.modeBit1[k].val == c.modeBit0[n].val) = false := by
  obtain ⟨h0, h1, h01⟩ := modeBits_inj hc hk hn
  obtain ⟨-, -, h10⟩ := modeBits_inj hc hn hk
  rw [beq_eq_decide, beq_eq_decide, decide_eq_decide, decide_eq_decide]
  exact ⟨⟨fun e => h0 (Fin.ext e), fun e => by rw [e]⟩,
    ⟨fun e => h1 (Fin.ext e), fun e => by rw [e]⟩,
    beq_false_of_ne fun e => h01 (Fin.ext e), beq_false_of_ne fun e => h10 (Fin.ext e.symm)⟩

/-! ### The accesses of R111, each as an update of the line -/

section Accesses

variable {c : Config} {s : State} {n : Line}

theorem regWrite_eimsk_clear (hs : s.config = c) (hn : n.val < c.nLines) :
    regWrite 2 1 ((eimsk s).setWidth 16 &&& ~~~(1#16 <<< n.val)) s = .ok (setEn n false s) := by
  subst hs
  rw [regWrite_eimsk, writeEimsk_one s n false _ hn]
  intro k hk
  have hk16 : k.val < 16 := by omega
  rw [getLsbD_setWidth_line, getLsbD_and_not, getLsbD_one_shiftLeft (by omega), line_val_beq,
    BitVec.getLsbD_setWidth, eimsk_bit s k hk]
  by_cases e : k = n <;> simp [e, hk16]

theorem regWrite_eimsk_set (hs : s.config = c) (hn : n.val < c.nLines) :
    regWrite 2 1 ((eimsk s).setWidth 16 ||| (1#16 <<< n.val)) s = .ok (setEn n true s) := by
  subst hs
  rw [regWrite_eimsk, writeEimsk_one s n true _ hn]
  intro k hk
  have hk16 : k.val < 16 := by omega
  rw [getLsbD_setWidth_line, BitVec.getLsbD_or, getLsbD_one_shiftLeft (by omega), line_val_beq,
    BitVec.getLsbD_setWidth, eimsk_bit s k hk]
  by_cases e : k = n <;> simp [e, hk16]

theorem regWrite_eicr_clear (hs : s.config = c) (hc : c.modeBits.Nodup) (hn : n.val < c.nLines) :
    regWrite 0 2 (eicr s &&& ~~~((1#16 <<< c.modeBit0[n].val) ||| (1#16 <<< c.modeBit1[n].val))) s =
      .ok (setTrig n 0b00#2 s) := by
  subst hs
  rw [regWrite_eicr, writeEicr_one s n 0b00#2 _ hn]
  intro k hk
  obtain ⟨h00, h11, h01, h10⟩ := modeBit_beq hc hk hn
  obtain ⟨hr0, hr1⟩ := eicr_bits s hc k hk
  apply trigField_eq <;>
    rw [getLsbD_and_not, BitVec.getLsbD_or, getLsbD_one_shiftLeft (Fin.isLt _),
      getLsbD_one_shiftLeft (Fin.isLt _)]
  · rw [hr0, h00, h01]
    by_cases e : k = n <;> simp [e]
  · rw [hr1, h11, h10]
    by_cases e : k = n <;> simp [e]

/-- Adding a mode's bits to EICR programs a field that is clear. -/
theorem regWrite_eicr_program (hs : s.config = c) (hc : c.modeBits.Nodup) (hn : n.val < c.nLines)
    (hclear : s.trig[n.val] = 0b00#2) (x : BitVec 2) :
    regWrite 0 2 (eicr s ||| (bitAt 16 (x.getLsbD 0) c.modeBit0[n].val |||
      bitAt 16 (x.getLsbD 1) c.modeBit1[n].val)) s = .ok (setTrig n x s) := by
  subst hs
  rw [regWrite_eicr, writeEicr_one s n x _ hn]
  intro k hk
  obtain ⟨h00, h11, h01, h10⟩ := modeBit_beq hc hk hn
  obtain ⟨hr0, hr1⟩ := eicr_bits s hc k hk
  apply trigField_eq <;>
    rw [BitVec.getLsbD_or, BitVec.getLsbD_or, bitAt_bit (Fin.isLt _), bitAt_bit (Fin.isLt _)]
  · rw [hr0, h00, h01]
    by_cases e : k = n <;> simp [e, hclear]
  · rw [hr1, h11, h10]
    by_cases e : k = n <;> simp [e, hclear]

theorem regWrite_eifr_line (hs : s.config = c) (hn : n.val < c.nLines) :
    regWrite 3 1 (1#16 <<< n.val) s = .ok (setPf n false s) := by
  subst hs
  rw [regWrite_eifr, writeEifr_one s n _ hn]
  intro k
  rw [getLsbD_setWidth_line, getLsbD_one_shiftLeft (by omega), line_val_beq]

end Accesses

/-- An access that is answered hands its value on. -/
theorem ok_bind {α β : Type} (x : α) (g : α → Except Refusal β) :
    (Except.ok x >>= g) = g x := rfl

/-- Settles O29: each access of the register-level form is the field-level update in its place, the
positions being distinct. -/
theorem triggerSequenceMatchesRegisters : Obligations.TriggerSequenceMatchesRegisters := by
  intro s n m hw hn
  obtain ⟨-, -, -, -, hc, -⟩ := hw
  simp only [programLineByRegisters]
  rw [regRead_eimsk, ok_bind, regWrite_eimsk_clear rfl hn, ok_bind,
    regRead_eicr, ok_bind, regWrite_eicr_clear (setEn_config n false s) hc hn, ok_bind]
  cases m with
  | none => rfl
  | some k =>
    dsimp only
    rw [regRead_eicr, ok_bind, regWrite_eicr_program (by simp) hc hn (by simp), ok_bind,
      regWrite_eifr_line (c := s.config) (by simp) hn, ok_bind,
      regRead_eimsk, ok_bind, regWrite_eimsk_set (c := s.config) (by simp) hn]
    rfl

end Sys2Proof.Machine
end

section
/-! The Interrupt-Line Controller (40_line_controller.md): what each of its operations answers when
its step is taken, then the statements about them (O22, O24, O26 to O28, O30 to O34). -/

namespace Sys2Proof.Machine

/-! ### Requests (R114) -/

theorem pinLow_iff (s : State) (n : Line) :
    pinLow s n = true ↔ ∃ p, pinOf s.config n = some p ∧ levelAt s p = false := by
  unfold pinLow
  split <;> simp_all

theorem requests_of_levelLow {s : State} {n : Line} (h : s.trig[n] = 0b00#2) :
    requests s n = (s.en[n] && pinLow s n) := by
  rw [requests, if_pos h]

theorem requests_of_edge {s : State} {n : Line} (h : s.trig[n] ≠ 0b00#2) :
    requests s n = (s.en[n] && s.pf[n]) := by
  rw [requests, if_neg h]

/-- Settles O32: the pin in mode level-low, the flag in the edge modes. -/
theorem requestCondition : Obligations.RequestCondition := by
  intro s n
  by_cases h : s.trig[n] = 0b00
  · rw [requests_of_levelLow h, Bool.and_eq_true, pinLow_iff]
    simp only [h, ne_eq, not_true_eq_false, false_and, or_false, true_and]
  · rw [requests_of_edge h, Bool.and_eq_true]
    simp only [h, ne_eq, not_false_eq_true, false_and, false_or, true_and]

/-! ### Registering, programming and releasing a line (R110 to R112) -/

/-- A handler select of 0 or 1 selects the handler R110 names. -/
theorem handlerOf_of_le {hsel : Byte} (h : hsel.toNat ≤ 1) :
    handlerOf hsel = some (if hsel = 0 then .noop else .tachCount) := by
  by_cases h0 : hsel = 0
  · simp [handlerOf, h0]
  · have h1 : hsel = 1 := by bv_omega
    simp [handlerOf, h1]

section Operations

variable {s : State} {line mode : Byte} {n : Line}

theorem lineRegister_mapped {pin : Pin} (hp : lineOfPin s.config pin = some n) (owner : Oid)
    (h : Handler) : lineRegister owner h pin s = .ok (n, bindLine n (some owner) h s) := by
  simp [lineRegister, hp]

theorem exec_lineRegister {hsel : Byte} (hs : TaskReady s) (hsel1 : hsel.toNat ≤ 1) (owner : Oid)
    (pin : Pin) :
    exec (.lineRegister owner hsel pin) s =
      settle (encode (.lineRegister owner hsel pin)) s
        ((lineRegister owner (if hsel = 0 then .noop else .tachCount) pin s).map Prod.snd) := by
  obtain ⟨hf, hd⟩ := hs
  simp only [exec, execLineRegister, handlerOf_of_le hsel1, whenTask_of_ready hf hd]

theorem exec_lineRegister_mapped {hsel : Byte} {pin : Pin} (hs : TaskReady s)
    (hsel1 : hsel.toNat ≤ 1) (hp : lineOfPin s.config pin = some n) (owner : Oid) :
    exec (.lineRegister owner hsel pin) s =
      .next (bindLine n (some owner) (if hsel = 0 then .noop else .tachCount) s) := by
  rw [exec_lineRegister hs hsel1, lineRegister_mapped hp]
  rfl

theorem exec_lineRegister_unmapped {hsel : Byte} {pin : Pin} (hs : TaskReady s)
    (hsel1 : hsel.toNat ≤ 1) (hp : lineOfPin s.config pin = none) (owner : Oid) :
    exec (.lineRegister owner hsel pin) s =
      Fatal .unsupportedPin (encode (.lineRegister owner hsel pin)) s := by
  rw [exec_lineRegister hs hsel1, lineRegister, hp]
  rfl

theorem exec_lineSetTriggerMode {m : Option Mode} (hs : TaskReady s)
    (hn : lineOfHandle s.config line = some n) (hm : modeOf mode = some m) :
    exec (.lineSetTriggerMode line mode) s = .next (programLine n m s) := by
  obtain ⟨hf, hd⟩ := hs
  simp only [exec, execLineSetTriggerMode, whenTask_of_ready hf hd, hn, hm, settle_ok]

theorem exec_lineUnregister (hs : TaskReady s) (hn : lineOfHandle s.config line = some n) :
    exec (.lineUnregister line) s = .next (bindLine n none .noop (programLine n none s)) := by
  obtain ⟨hf, hd⟩ := hs
  simp only [exec, execLineUnregister, whenTask_of_ready hf hd, hn, settle_ok]

/-! ### The checks (60_exceptions.md R224) -/

theorem exec_lineSetTriggerMode_noLine (hs : TaskReady s)
    (hn : lineOfHandle s.config line = none) :
    exec (.lineSetTriggerMode line mode) s =
      Fatal .invalidLine (encode (.lineSetTriggerMode line mode)) s := by
  obtain ⟨hf, hd⟩ := hs
  simp only [exec, execLineSetTriggerMode, whenTask_of_ready hf hd, hn, settle_error, raiseFatal]

theorem exec_lineSetTriggerMode_noMode (hs : TaskReady s)
    (hn : lineOfHandle s.config line = some n) (hm : modeOf mode = none) :
    exec (.lineSetTriggerMode line mode) s =
      Fatal .invalidMode (encode (.lineSetTriggerMode line mode)) s := by
  obtain ⟨hf, hd⟩ := hs
  simp only [exec, execLineSetTriggerMode, whenTask_of_ready hf hd, hn, hm, settle_error,
    raiseFatal]

theorem exec_lineUnregister_noLine (hs : TaskReady s) (hn : lineOfHandle s.config line = none) :
    exec (.lineUnregister line) s = Fatal .invalidLine (encode (.lineUnregister line)) s := by
  obtain ⟨hf, hd⟩ := hs
  simp only [exec, execLineUnregister, whenTask_of_ready hf hd, hn, settle_error, raiseFatal]

end Operations

/-- Settles O22: each check that fails has its own equation, the checks before it passed. -/
theorem controllerOperationsCheckInOrder : Obligations.ControllerOperationsCheckInOrder := by
  intro s hs
  refine ⟨fun owner hsel pin hsel1 hp => exec_lineRegister_unmapped hs hsel1 hp owner,
    fun line mode hl => exec_lineSetTriggerMode_noLine hs (lineOfHandle_of_le hl),
    fun line mode hl h8 hm => ?_,
    fun line hl => exec_lineUnregister_noLine hs (lineOfHandle_of_le hl)⟩
  have hn := lineOfHandle_of_lt (show line.toNat < 8 by omega) hl
  exact exec_lineSetTriggerMode_noMode hs hn (modeOf_invalid hm)

/-- Settles O24: the frame's fields by packing, and the two outcomes by their equations. -/
theorem lineRegisterBindsTheLine : Obligations.LineRegisterBindsTheLine := by
  intro s owner hsel pin hs hsel1
  refine ⟨by simp [encode], fun n hp => ?_, fun hp => exec_lineRegister_unmapped hs hsel1 hp owner⟩
  exact ⟨_, _, exec_lineRegister_mapped hs hsel1 hp owner, lineRegister_mapped hp owner _, rfl,
    by simp, by simp, set_sameElsewhere n _ _, set_sameElsewhere n _ _, rfl⟩

/-- The trigger-mode sequence writes no other line. -/
theorem programLine_sameElsewhere (n : Line) (m : Option Mode) (s : State) :
    SameElsewhere n s.trig (programLine n m s).trig ∧
    SameElsewhere n s.en (programLine n m s).en ∧ SameElsewhere n s.pf (programLine n m s).pf :=
  ⟨fun _ h => programLine_trig_other h m s, fun _ h => programLine_en_other h m s,
    fun _ h => programLine_pf_other h m s⟩

/-- Settles O26: the operation is the trigger-mode sequence of an armed mode. -/
theorem lineSetTriggerModeArms : Obligations.LineSetTriggerModeArms := by
  intro s line mode n hs hline hn hmode
  obtain ⟨k, hk, hbits⟩ := modeOf_armed hmode
  obtain ⟨htrig, hen, hpf⟩ := programLine_sameElsewhere n (some k) s
  exact ⟨_, exec_lineSetTriggerMode hs (lineOfHandle_of_eq hline hn) hk, by simp [hbits], by simp,
    by simp, htrig, hen, hpf, programLine_frame n (some k) s⟩

/-- A disable leaves the flag as it was, or set where set trigger bits were cleared (R116). -/
theorem programLine_pf_disabled_cases (n : Line) (s : State) :
    (programLine n none s).pf[n] = s.pf[n] ∨
      (s.trig[n] ≠ 0b00 ∧ (programLine n none s).pf[n] = true) := by
  have hpf : (programLine n none s).pf[n] =
      (s.pf[n] || (s.trig[n] != 0b00#2 && Config.freeBit s.draws)) := programLine_pf_disabled n s
  rw [hpf]
  by_cases htrig : s.trig[n] = 0b00#2
  · exact .inl (by rw [htrig, bne_self_eq_false, Bool.false_and, Bool.or_false])
  · cases Config.freeBit s.draws with
    | false => exact .inl (by rw [Bool.and_false, Bool.or_false])
    | true => exact .inr ⟨htrig, by rw [bne_iff_ne.2 htrig, Bool.and_true, Bool.or_true]⟩

/-- Settles O27: the operation is the trigger-mode sequence of a disable. -/
theorem lineSetTriggerModeDisables : Obligations.LineSetTriggerModeDisables := by
  intro s line n hs hline hn
  obtain ⟨htrig, hen, hpf⟩ := programLine_sameElsewhere n none s
  exact ⟨_, exec_lineSetTriggerMode hs (lineOfHandle_of_eq hline hn) rfl, by simp, by simp,
    programLine_pf_disabled_cases n s, htrig, hen, hpf, programLine_frame n none s⟩

/-- Settles O28: the line is armed in an edge mode with its flag clear. -/
theorem armingLeavesNoEdgeRequest : Obligations.ArmingLeavesNoEdgeRequest := by
  intro s t line mode n hs hline hn hlow hhigh ht
  obtain ⟨u, hu, htrig, hen, hpf, -⟩ := lineSetTriggerModeArms s line mode n hs hline hn hhigh
  obtain rfl : u = t := by simpa [hu] using ht
  have hedge : u.trig[n] ≠ 0b00#2 := by
    intro h
    have hfield := congrArg BitVec.toNat (htrig.symm.trans h)
    simp only [BitVec.extractLsb'_toNat, Nat.shiftRight_zero, BitVec.toNat_ofNat] at hfield
    omega
  rw [requests_of_edge hedge, hpf, Bool.and_false]

/-- Settles O30: a disable, as in O27, then the default owner and handler. -/
theorem lineUnregisterReleasesTheLine : Obligations.LineUnregisterReleasesTheLine := by
  intro s line n hs hline hn
  obtain ⟨htrig, hen, hpf⟩ := programLine_sameElsewhere n none s
  refine ⟨_, exec_lineUnregister hs (lineOfHandle_of_eq hline hn), by simp, by simp, by simp,
    by simp, programLine_pf_disabled_cases n s, htrig, hen, hpf, ?_, ?_, ?_⟩
  · rw [bindLine_owner, programLine_owner]
    exact set_sameElsewhere n s.owner none
  · rw [bindLine_handler, programLine_handler]
    exact set_sameElsewhere n s.handler .noop
  · apply State.ext <;> simp

/-! ### Pin changes (R113) -/

theorem exec_pinChange {s : State} (hs : Running s) (v : Bool) (pin : Pin) :
    exec (.pinChange (if v then 1 else 0) pin) s = .next (pinChanges pin v s) := by
  have hlevel : levelOf (if v then 1 else 0) = some v := by cases v <;> rfl
  simp only [exec, execPinChange, hlevel, whenRunning_of_running hs]

theorem pinChanges_unmapped {s : State} {p : Pin} (hp : lineOfPin s.config p = none) (v : Bool) :
    pinChanges p v s = s := by
  simp only [pinChanges, hp]

/-- A level that does not change latches nothing. -/
theorem latches_self (trig : BitVec 2) (v : Bool) : latches trig v v = false := by
  unfold latches
  split_ifs <;> simp

section Mapped

variable {s : State} {p : Pin} {n : Line}

/-- A change of a mapped pin's level does nothing, or records the level, with or without the flag. -/
theorem pinChanges_cases (hp : lineOfPin s.config p = some n) (v : Bool) :
    (levelAt s p = v ∧ pinChanges p v s = s) ∨
      (latches s.trig[n] (levelAt s p) v = true ∧
        pinChanges p v s = setPf n true (putLevel p v s)) ∨
      (latches s.trig[n] (levelAt s p) v = false ∧ pinChanges p v s = putLevel p v s) := by
  simp only [pinChanges, hp]
  split_ifs with hsame hedge
  · exact .inl ⟨hsame, rfl⟩
  · exact .inr (.inl ⟨hedge, rfl⟩)
  · exact .inr (.inr ⟨by simpa using hedge, rfl⟩)

theorem pinChanges_of_levelAt_eq {v : Bool} (h : levelAt s p = v) : pinChanges p v s = s := by
  unfold pinChanges
  split
  · rfl
  · rw [if_pos h]

theorem levelAt_pinChanges_self (hp : lineOfPin s.config p = some n) (v : Bool) :
    levelAt (pinChanges p v s) p = v := by
  obtain ⟨h, e⟩ | ⟨-, e⟩ | ⟨-, e⟩ := pinChanges_cases hp v <;> rw [e]
  · exact h
  · exact levelAt_putLevel_self p v s
  · exact levelAt_putLevel_self p v s

theorem levelAt_pinChanges_ne (hp : lineOfPin s.config p = some n) (v : Bool) {q : Pin}
    (hq : q ≠ p) : levelAt (pinChanges p v s) q = levelAt s q := by
  obtain ⟨-, e⟩ | ⟨-, e⟩ | ⟨-, e⟩ := pinChanges_cases hp v <;> rw [e]
  · exact levelAt_putLevel_ne hq v s
  · exact levelAt_putLevel_ne hq v s

/-- The line's flag is set exactly by the edges its trigger mode latches. -/
theorem pinChanges_pf_same (hp : lineOfPin s.config p = some n) (v : Bool) :
    (pinChanges p v s).pf[n] = (s.pf[n] || latches s.trig[n] (levelAt s p) v) := by
  obtain ⟨h, e⟩ | ⟨h, e⟩ | ⟨h, e⟩ := pinChanges_cases hp v <;> rw [e]
  · rw [h, latches_self, Bool.or_false]
  · rw [h, Bool.or_true]
    exact setPf_pf_same n true _
  · rw [h, Bool.or_false]
    rfl

theorem pinChanges_pf_other (hp : lineOfPin s.config p = some n) (v : Bool) :
    SameElsewhere n s.pf (pinChanges p v s).pf := by
  obtain ⟨-, e⟩ | ⟨-, e⟩ | ⟨-, e⟩ := pinChanges_cases hp v <;> rw [e]
  · exact fun _ _ => rfl
  · exact set_sameElsewhere n s.pf true
  · exact fun _ _ => rfl

theorem pinChanges_frame (hp : lineOfPin s.config p = some n) (v : Bool) :
    pinChanges p v s =
      { s with level := (pinChanges p v s).level, pf := (pinChanges p v s).pf } := by
  obtain ⟨-, e⟩ | ⟨-, e⟩ | ⟨-, e⟩ := pinChanges_cases hp v <;> rw [e] <;> rfl

end Mapped

/-- Settles O31: the flag by `pinChanges_pf_same`, read off R113's table in each trigger mode. -/
theorem pinChangeLatchesItsEdges : Obligations.PinChangeLatchesItsEdges := by
  intro s pin v hs
  refine ⟨by simp [encode], fun hp => ?_, fun n hp => ?_⟩
  · rw [exec_pinChange hs, pinChanges_unmapped hp]
  · have hpf := pinChanges_pf_same hp v
    refine ⟨_, exec_pinChange hs v pin, pinChanges_of_levelAt_eq, levelAt_pinChanges_self hp v,
      fun _ hq => levelAt_pinChanges_ne hp v hq, fun ht => ?_, fun ht => ?_, fun ht => ?_,
      fun ht => ?_, pinChanges_pf_other hp v, pinChanges_frame hp v⟩
    all_goals simp [hpf, ht, latches]

/-! ### The service routine (R115, R117) -/

section ServiceRoutine

variable {s : State} {line : Byte} {n : Line}

theorem exec_lineIsr (hs : Running s) (hn : lineOfHandle s.config line = some n)
    (hr : requests s n = true) :
    exec (.lineIsr line) s = settle (encode (.lineIsr line)) s (serviceLine n s) := by
  simp only [exec, execLineIsr, whenRunning_of_running hs, hn, hr, if_true]

theorem serviceLine_noop (hh : s.handler[n] = .noop) :
    serviceLine n s = .ok (setPf n false s) := by
  simp only [serviceLine, hh]

theorem serviceLine_tachCount {oid : Oid} {a : Tach} (hh : s.handler[n] = .tachCount)
    (ho : s.owner[n] = some oid) (ha : tachOf s oid = some a) :
    serviceLine n s =
      .ok (putTach oid { a with pulseCount := a.pulseCount + 1 } (setPf n false s)) := by
  have ha' : tachOf (setPf n false s) oid = some a := ha
  simp only [serviceLine, hh, tachCount, ho, ha']

end ServiceRoutine

/-- Settles O33: the no-op handler leaves the clearing of the flag on entry alone. -/
theorem lineIsrWithoutOwnerClearsTheFlag : Obligations.LineIsrWithoutOwnerClearsTheFlag := by
  intro s line n hs hline hn hr hh
  have hexec := exec_lineIsr hs (lineOfHandle_of_eq hline hn) hr
  rw [serviceLine_noop hh, settle_ok] at hexec
  exact ⟨_, hexec, setPf_pf_same n false s, set_sameElsewhere n s.pf false, rfl⟩

/-- Settles O34: after the flag the TachCount handler writes the owner's pulse counter alone. -/
theorem lineIsrCountsForTheOwner : Obligations.LineIsrCountsForTheOwner := by
  intro s line n oid a hs hline hn hr hh ho ha
  have hexec := exec_lineIsr hs (lineOfHandle_of_eq hline hn) hr
  rw [serviceLine_tachCount hh ho ha, settle_ok] at hexec
  exact ⟨_, hexec, tachOf_putTach_self oid _ _, fun _ h => tachOf_putTach_ne h _ _,
    setPf_pf_same n false s, set_sameElsewhere n s.pf false, rfl⟩

end Sys2Proof.Machine
end

section
/-! The pulse counters (41_tachometer.md): the two host commands, the drain and its reports, and the
balance of the reports against the handler invocations (O21, O42 to O51). -/

namespace Sys2Proof.Machine

/-! ### Making a counter (R150) and its checks (60_exceptions.md R224) -/

section Making

variable {s : State} {oid : Oid} {pin : Pin} {n : Line}

theorem exec_configTachometer_duplicate {a : Tach} (hs : TaskReady s) (ha : tachOf s oid = some a) :
    exec (.configTachometer oid pin) s =
      Fatal .duplicateOid (encode (.configTachometer oid pin)) s := by
  obtain ⟨hf, hd⟩ := hs
  simp only [exec, execConfigTachometer, whenTask_of_ready hf hd, ha, settle_error, raiseFatal]

theorem exec_configTachometer_unmapped (hs : TaskReady s) (hnew : tachOf s oid = none)
    (hp : lineOfPin s.config pin = none) :
    exec (.configTachometer oid pin) s =
      Fatal .unsupportedPin (encode (.configTachometer oid pin)) s := by
  obtain ⟨hf, hd⟩ := hs
  simp only [exec, execConfigTachometer, whenTask_of_ready hf hd, hnew, hp, settle_error,
    raiseFatal]

theorem exec_configTachometer_full (hs : TaskReady s) (hnew : tachOf s oid = none)
    (hp : lineOfPin s.config pin = some n) (hfull : s.tach.length = s.config.maxTach) :
    exec (.configTachometer oid pin) s =
      Fatal .capacityExceeded (encode (.configTachometer oid pin)) s := by
  obtain ⟨hf, hd⟩ := hs
  simp only [exec, execConfigTachometer, whenTask_of_ready hf hd, hnew, hp, hfull, if_true,
    settle_error, raiseFatal]

theorem exec_configTachometer_new (hs : TaskReady s) (hnew : tachOf s oid = none)
    (hp : lineOfPin s.config pin = some n) (hroom : s.tach.length ≠ s.config.maxTach) :
    exec (.configTachometer oid pin) s =
      .next (bindLine n (some oid) .tachCount (putTach oid (newTach n) s)) := by
  obtain ⟨hf, hd⟩ := hs
  have hp' : lineOfPin (putTach oid (newTach n) s).config pin = some n := hp
  simp only [exec, execConfigTachometer, whenTask_of_ready hf hd, hnew, hp, hroom, if_false,
    lineRegister_mapped hp', Except.map, settle_ok]

end Making

/-- Settles O42: the new entry of the table, then the line registered for it. -/
theorem configTachometerMakesTheInstance : Obligations.ConfigTachometerMakesTheInstance := by
  intro s oid pin n hs hnew hp hroom
  exact ⟨_, exec_configTachometer_new hs hnew hp hroom, tachOf_putTach_self oid (newTach n) s,
    fun _ ho => tachOf_putTach_ne ho (newTach n) s, by simp, by simp,
    set_sameElsewhere n s.owner (some oid), set_sameElsewhere n s.handler .tachCount, rfl⟩

/-! ### The mode policy (R151) -/

/-- The counter is in the mode a command asks for: enabled in that mode, or disabled. -/
abbrev InMode (a : Tach) (m : Option Mode) : Prop :=
  a.enabled = m.isSome ∧ ∀ k ∈ m, a.activeMode = some k

/-- The counter with the mode a command asks for. -/
def Tach.withMode (a : Tach) (m : Option Mode) : Tach :=
  { a with enabled := m.isSome, activeMode := m }

@[simp] theorem withMode_line (a : Tach) (m : Option Mode) : (a.withMode m).line = a.line := rfl

theorem inMode_withMode (a : Tach) (m : Option Mode) : InMode (a.withMode m) m :=
  ⟨rfl, fun _ hk => hk⟩

section ModePolicy

variable {s : State} {oid : Oid} {a : Tach} {m : Option Mode} {mode : Byte}

/-- A counter that is in the mode asked for is left alone. -/
theorem applyMode_of_inMode (h : InMode a m) : applyMode oid a m s = .ok s := by
  obtain ⟨henabled, hactive⟩ := h
  cases m with
  | none => simp [applyMode, henabled]
  | some k => simp [applyMode, henabled, hactive k rfl]

/-- A counter in another mode is put in the mode asked for, then its line is programmed. -/
theorem applyMode_of_not_inMode (h : ¬ InMode a m) :
    applyMode oid a m s = armLine a.line m (putTach oid (a.withMode m) s) := by
  cases m with
  | none =>
    have henabled : a.enabled = true := by simpa [InMode] using h
    simp [applyMode, henabled, Tach.withMode]
  | some k =>
    have hother : a.enabled = true → a.activeMode ≠ some k := by simpa [InMode] using h
    have hguard : (!a.enabled || a.activeMode != some k) = true := by
      cases he : a.enabled <;> simp [hother, he]
    simp only [applyMode, hguard, if_true, Tach.withMode, Option.isSome_some]

theorem armLine_of_lt {n : Line} (hn : n.val < s.config.nLines) :
    armLine n m s = .ok (programLine n m s) := by
  simp [armLine, hasLine, hn]

theorem armLine_of_not_lt {n : Line} (hn : ¬ n.val < s.config.nLines) :
    armLine n m s = .error .invalidLine := by
  simp [armLine, hasLine, hn]

/-! ### The command (R151) and its checks (60_exceptions.md R224) -/

theorem exec_setTachIrqState (hs : TaskReady s) (ha : tachOf s oid = some a)
    (hm : modeOf mode = some m) :
    exec (.setTachIrqState oid mode) s =
      settle (encode (.setTachIrqState oid mode)) s (applyMode oid a m s) := by
  obtain ⟨hf, hd⟩ := hs
  simp only [exec, execSetTachIrqState, whenTask_of_ready hf hd, ha, hm]

theorem exec_setTachIrqState_unknown (hs : TaskReady s) (ha : tachOf s oid = none) :
    exec (.setTachIrqState oid mode) s =
      Fatal .unknownOid (encode (.setTachIrqState oid mode)) s := by
  obtain ⟨hf, hd⟩ := hs
  simp only [exec, execSetTachIrqState, whenTask_of_ready hf hd, ha, settle_error, raiseFatal]

theorem exec_setTachIrqState_noMode (hs : TaskReady s) (ha : tachOf s oid = some a)
    (hm : modeOf mode = none) :
    exec (.setTachIrqState oid mode) s =
      Fatal .invalidMode (encode (.setTachIrqState oid mode)) s := by
  obtain ⟨hf, hd⟩ := hs
  simp only [exec, execSetTachIrqState, whenTask_of_ready hf hd, ha, hm, settle_error, raiseFatal]

theorem exec_setTachIrqState_unchanged (hs : TaskReady s) (ha : tachOf s oid = some a)
    (hm : modeOf mode = some m) (h : InMode a m) :
    exec (.setTachIrqState oid mode) s = .next s := by
  rw [exec_setTachIrqState hs ha hm, applyMode_of_inMode h, settle_ok]

theorem exec_setTachIrqState_changed (hs : TaskReady s) (ha : tachOf s oid = some a)
    (hm : modeOf mode = some m) (h : ¬ InMode a m) (hline : a.line.val < s.config.nLines) :
    exec (.setTachIrqState oid mode) s =
      .next (programLine a.line m (putTach oid (a.withMode m) s)) := by
  have hline' : a.line.val < (putTach oid (a.withMode m) s).config.nLines := hline
  rw [exec_setTachIrqState hs ha hm, applyMode_of_not_inMode h, armLine_of_lt hline', settle_ok]

theorem exec_setTachIrqState_noLine (hs : TaskReady s) (ha : tachOf s oid = some a)
    (hm : modeOf mode = some m) (h : ¬ InMode a m) (hline : ¬ a.line.val < s.config.nLines) :
    exec (.setTachIrqState oid mode) s =
      Fatal .invalidLine (encode (.setTachIrqState oid mode)) s := by
  have hline' : ¬ a.line.val < (putTach oid (a.withMode m) s).config.nLines := hline
  rw [exec_setTachIrqState hs ha hm, applyMode_of_not_inMode h, armLine_of_not_lt hline']
  rfl

/-- A mode command that raises no fatal error finds the counter and the mode. It leaves the state
alone where the counter is in that mode, and changes the mode where it is not. -/
theorem setTachIrqState_inv {t : State} (hs : TaskReady s) (ht : Running t)
    (h : exec (.setTachIrqState oid mode) s = .next t) :
    ∃ a m, tachOf s oid = some a ∧ modeOf mode = some m ∧
      ((InMode a m ∧ t = s) ∨ t = programLine a.line m (putTach oid (a.withMode m) s)) := by
  have hfault : ∀ {c f}, exec (.setTachIrqState oid mode) s ≠ Fatal c f s := by
    rintro c f hfatal
    obtain rfl : t = { s with fault := some (c, f) } := by simpa [hfatal, eq_comm] using h
    cases ht
  cases ha : tachOf s oid with
  | none => exact absurd (exec_setTachIrqState_unknown hs ha) hfault
  | some a =>
    cases hm : modeOf mode with
    | none => exact absurd (exec_setTachIrqState_noMode hs ha hm) hfault
    | some m =>
      refine ⟨a, m, rfl, rfl, ?_⟩
      by_cases hin : InMode a m
      · rw [exec_setTachIrqState_unchanged hs ha hm hin] at h
        exact .inl ⟨hin, (Host.Outcome.next.inj h).symm⟩
      · by_cases hline : a.line.val < s.config.nLines
        · rw [exec_setTachIrqState_changed hs ha hm hin hline] at h
          exact .inr (Host.Outcome.next.inj h).symm
        · exact absurd (exec_setTachIrqState_noLine hs ha hm hin hline) hfault

end ModePolicy

/-- Settles O21: each check that fails has its own equation, the checks before it passed. -/
theorem commandsCheckInOrder : Obligations.CommandsCheckInOrder := by
  intro s hs
  refine ⟨fun oid pin hold => ?_, fun oid pin => exec_configTachometer_unmapped hs,
    fun oid pin hnew hp hfull => ?_, fun oid mode => exec_setTachIrqState_unknown hs,
    fun oid mode hold hmode => ?_⟩
  · obtain ⟨a, ha⟩ := Option.ne_none_iff_exists'.1 hold
    exact exec_configTachometer_duplicate hs ha
  · obtain ⟨n, hn⟩ := Option.ne_none_iff_exists'.1 hp
    exact exec_configTachometer_full hs hnew hn hfull
  · obtain ⟨a, ha⟩ := Option.ne_none_iff_exists'.1 hold
    exact exec_setTachIrqState_noMode hs ha (modeOf_invalid hmode)

/-- The trigger-mode sequence leaves every counter as it was. -/
@[simp] theorem tachOf_programLine (n : Line) (m : Option Mode) (s : State) (oid : Oid) :
    tachOf (programLine n m s) oid = tachOf s oid :=
  tachOf_congr (programLine_tach n m s) oid

/-- A mode change writes the table, and of the line what its trigger-mode sequence writes. -/
theorem programLine_putTach_frame (n : Line) (m : Option Mode) (oid : Oid) (b : Tach) (s : State) :
    let t := programLine n m (putTach oid b s)
    t = { s with tach := t.tach, trig := t.trig, en := t.en, pf := t.pf, draws := t.draws } := by
  apply State.ext <;> simp

/-- Settles O43: the changed counter, and the trigger-mode sequence of an armed mode. -/
theorem setTachIrqStateEnables : Obligations.SetTachIrqStateEnables := by
  intro s oid a k hs ha hline hother
  have hin : ¬ InMode a (some k) := by
    rintro ⟨henabled, hactive⟩
    rcases hother with hdisabled | hmode
    · exact absurd (henabled.symm.trans hdisabled) (by simp)
    · exact hmode (hactive k rfl)
  obtain ⟨htrig, hen, hpf⟩ := programLine_sameElsewhere a.line (some k)
    (putTach oid (a.withMode (some k)) s)
  exact ⟨_, exec_setTachIrqState_changed hs ha (modeOf_number k) hin hline, by simp [Tach.withMode],
    fun _ ho => by rw [tachOf_programLine, tachOf_putTach_ne ho], by simp, by simp, by simp,
    htrig, hen, hpf, programLine_putTach_frame ..⟩

/-- Settles O44: the changed counter, and the trigger-mode sequence of a disable. -/
theorem setTachIrqStateDisables : Obligations.SetTachIrqStateDisables := by
  intro s oid a hs ha hline henabled
  have hin : ¬ InMode a none := by simp [InMode, henabled]
  obtain ⟨htrig, hen, hpf⟩ := programLine_sameElsewhere a.line none
    (putTach oid (a.withMode none) s)
  exact ⟨_, exec_setTachIrqState_changed hs ha rfl hin hline, by simp [Tach.withMode],
    fun _ ho => by rw [tachOf_programLine, tachOf_putTach_ne ho], by simp, by simp,
    programLine_pf_disabled_cases a.line (putTach oid (a.withMode none) s), htrig, hen, hpf,
    programLine_putTach_frame ..⟩

/-- Settles O45: the counter is in the mode asked for. -/
theorem unchangedModeIsNotReapplied : Obligations.UnchangedModeIsNotReapplied := by
  intro s oid a hs ha
  refine ⟨fun k henabled hactive => ?_, fun hdisabled => ?_⟩
  · exact exec_setTachIrqState_unchanged hs ha (modeOf_number k)
      (by simp [InMode, henabled, hactive])
  · exact exec_setTachIrqState_unchanged hs ha rfl (by simp [InMode, hdisabled])

/-- Settles O46: the first command leaves the counter in the mode that the second asks for. -/
theorem repeatedModeChangeIsIdempotent : Obligations.RepeatedModeChangeIsIdempotent := by
  intro s t oid mode hs h ht
  obtain ⟨a, m, ha, hm, ⟨-, rfl⟩ | rfl⟩ := setTachIrqState_inv hs ht h
  · exact h
  · have hready : TaskReady (programLine a.line m (putTach oid (a.withMode m) s)) := by
      simpa [TaskReady] using hs
    exact exec_setTachIrqState_unchanged hready (by simp) hm (inMode_withMode a m)

/-! ### The drain (R153 to R155, R157) -/

theorem drainOf_eq_none {left : List Oid} : drainOf left = none ↔ left = [] := by
  cases left <;> simp [drainOf]

theorem exec_drainTask {s : State} (hs : TaskReady s) (hwake : s.wakeFlag = true) :
    exec .drainTask s =
      .next { s with wakeFlag := false, drainLeft := drainOf (enabledOids s) } := by
  obtain ⟨hf, hd⟩ := hs
  simp only [exec, execDrainTask, whenTask_of_ready hf hd, hwake, if_true]

/-- Settles O47: the drain is `drainOf` of the enabled oids, which rise. -/
theorem drainTaskTakesTheEnabledInstances : Obligations.DrainTaskTakesTheEnabledInstances := by
  intro s hs hwake hrising
  refine ⟨_, exec_drainTask hs hwake, fun left hleft => ?_, fun hnone oid a ha => ?_, rfl⟩
  · obtain ⟨rfl, hne⟩ := drainOf_eq_some hleft
    have hnodup : (enabledOids s).Nodup :=
      (enabledOids_pairwise hrising).imp fun hlt => BitVec.ne_of_lt hlt
    exact ⟨hne, hnodup, mem_enabledOids hrising⟩
  · have hempty : enabledOids s = [] := drainOf_eq_none.1 hnone
    by_contra henabled
    have hmem := (mem_enabledOids hrising oid).2 ⟨a, ha, by simpa using henabled⟩
    rw [hempty] at hmem
    cases hmem

theorem exec_drainStep {s : State} {oid : Oid} {left : List Oid} {a : Tach} (hs : Running s)
    (hd : s.drainLeft = some left) (hm : oid ∈ left) (ha : tachOf s oid = some a) :
    exec (.drainStep oid) s =
      .next (emit (encode (.tachResponse oid a.pulseCount))
        { putTach oid { a with pulseCount := 0 } s with
          drainLeft := drainOf (left.filter (fun o => o != oid)) }) := by
  have hcontains : left.contains oid = true := by simpa using hm
  simp only [exec, execDrainStep, whenRunning_of_running hs, hd, hcontains, ha, if_true]

/-- Settles O48: what is left to read is `drainOf` of the other oids. -/
theorem drainStepReadsResetsAndReports : Obligations.DrainStepReadsResetsAndReports := by
  intro s oid left a hs hd hm ha
  refine ⟨_, exec_drainStep hs hd hm ha, tachOf_putTach_self oid _ s,
    fun _ ho => tachOf_putTach_ne ho _ s, rfl, ?_, fun left' hleft' o => ?_, rfl⟩
  · rw [emit_drainLeft, drainOf_eq_none]
    simp
  · obtain ⟨rfl, -⟩ := drainOf_eq_some hleft'
    simp

theorem exec_tachResponse {s : State} (hs : Running s) (oid : Oid) (count : Word) :
    exec (.tachResponse oid count) s = .next (emit (encode (.tachResponse oid count)) s) := by
  simp only [exec, execTachResponse, whenRunning_of_running hs]

/-- Settles O49: the frame's fields by packing. -/
theorem tachResponseJoinsOut : Obligations.TachResponseJoinsOut :=
  ⟨fun _ oid count hs => exec_tachResponse hs oid count, fun oid count => by simp [encode],
    by decide⟩

/-- Settles O50: of the operations' effects only the two reports write `OUT`. -/
theorem onlyEnabledInstancesAreReported : Obligations.OnlyEnabledInstancesAreReported := by
  intro i s t hinv h hreport
  cases exec_cases i s t h with
  | same ht | fatal _ _ _ ht | config _ _ _ _ _ _ _ _ _ ht | update _ _ _ _ _ ht
  | mode _ _ _ _ _ _ _ _ _ _ _ _ _ ht | register _ _ _ _ _ _ _ _ _ ht
  | trigger _ _ _ _ _ _ _ _ ht | unregister _ _ _ _ _ _ ht | tick _ _ ht
  | isrNoop _ _ _ _ _ _ _ _ ht | isrCount _ _ _ _ _ _ _ _ _ _ _ _ ht | expiry _ _ _ _ _ _ ht
  | drainTask _ _ _ ht =>
    exact .inl (by simp [ht])
  | pin _ _ _ _ _ _ _ ht =>
    exact .inl (by rcases ht with rfl | rfl <;> rfl)
  | drainStep oid left a hi _ hd hm ha ht =>
    obtain ⟨-, -, -, -, hdrain, -⟩ := hinv
    exact .inr ⟨oid, a, hi, ha, enabled_of_mem_drainLeft hdrain hd hm ha, by rw [ht]; rfl⟩
  | response _ _ hi _ _ =>
    subst hi
    cases hreport

/-! ### The balance of reports and calls (R156) -/

section Ledger

variable {i : Instr} {s t : State} {oid o : Oid} {a : Tach}

/-- The operations that call tach_count: the service routine of a requesting TachCount line whose
owner is configured. -/
theorem countsPulse_iff :
    countsPulse i oid s = true ↔
      ∃ l n a, i = .lineIsr l ∧ s.fault = none ∧ lineOfHandle s.config l = some n ∧
        requests s n = true ∧ s.handler[n] = .tachCount ∧ s.owner[n] = some oid ∧
        tachOf s oid = some a := by
  constructor
  · intro h
    cases i with
    | lineIsr l =>
      cases hn : lineOfHandle s.config l with
      | none => simp [countsPulse, hn] at h
      | some n =>
        simp only [countsPulse, hn, Bool.and_eq_true, Option.isNone_iff_eq_none, beq_iff_eq,
          Option.isSome_iff_exists] at h
        obtain ⟨⟨⟨⟨hf, hr⟩, hh⟩, ho⟩, a, ha⟩ := h
        exact ⟨l, n, a, rfl, hf, hn, hr, hh, ho, ha⟩
    | _ => cases h
  · rintro ⟨l, n, a, rfl, hf, hn, hr, hh, ho, ha⟩
    simp only [countsPulse, hn, hf, hr, hh, ho, ha, Option.isNone_none, Option.isSome_some,
      beq_self_eq_true, Bool.and_self]

/-- An operation that calls tach_count clears its line's flag and adds one to the count. -/
theorem exec_of_countsPulse (h : countsPulse i oid s = true) :
    ∃ n a, tachOf s oid = some a ∧ exec i s =
      .next (putTach oid { a with pulseCount := a.pulseCount + 1 } (setPf n false s)) := by
  obtain ⟨l, n, a, rfl, hf, hn, hr, hh, ho, ha⟩ := countsPulse_iff.1 h
  refine ⟨n, a, ha, ?_⟩
  rw [exec_lineIsr hf hn hr, serviceLine_tachCount hh ho ha, settle_ok]

theorem reportedSum_append (oid : Oid) (fs gs : List Frame) :
    reportedSum oid (fs ++ gs) = reportedSum oid fs + reportedSum oid gs := by
  induction fs with
  | nil => simp [reportedSum]
  | cons f fs ih => rw [List.cons_append, reportedSum, ih, reportedSum, BitVec.add_assoc]

/-- One report adds its count to the sum of its own oid. -/
theorem reportedSum_tachResponse (oid o : Oid) (count : Word) :
    reportedSum oid [encode (.tachResponse o count)] = if o = oid then count else 0 := by
  simp [reportedSum, encode]

theorem pulseCountOf_eq (ha : tachOf s oid = some a) : pulseCountOf s oid = a.pulseCount := by
  simp [pulseCountOf, ha]

theorem pulseCountOf_new (hnew : tachOf s oid = none) : pulseCountOf s oid = 0 := by
  simp [pulseCountOf, hnew]

/-- The counts depend on the table alone. -/
theorem pulseCountOf_congr (htach : t.tach = s.tach) : pulseCountOf t oid = pulseCountOf s oid := by
  rw [pulseCountOf, pulseCountOf, tachOf_congr htach]

/-- After a write of one entry its oid has the entry's count, every other the one it had. -/
theorem pulseCountOf_putTach (oid o : Oid) (b : Tach) (s : State) :
    pulseCountOf (putTach o b s) oid = if o = oid then b.pulseCount else pulseCountOf s oid := by
  split_ifs with e
  · subst e
    exact pulseCountOf_eq (tachOf_putTach_self o b s)
  · rw [pulseCountOf, pulseCountOf, tachOf_putTach_ne (Ne.symm e)]

/-- The balance depends on the reports and the table alone. -/
theorem ledger_congr (hout : t.out = s.out) (htach : t.tach = s.tach) :
    ledger oid t = ledger oid s := by
  rw [ledger, ledger, hout, pulseCountOf_congr htach]

/-- A write of an entry that keeps its count keeps every balance. -/
theorem ledger_putTach {b : Tach} (hcount : b.pulseCount = pulseCountOf s o) :
    ledger oid (putTach o b s) = ledger oid s := by
  rw [ledger, ledger, pulseCountOf_putTach, hcount, putTach_out]
  split_ifs with e
  · rw [e]
  · rfl

/-- A drain step moves a count from the table to the reports. -/
theorem ledger_drained (ha : tachOf s o = some a)
    (hout : t.out = s.out ++ [encode (.tachResponse o a.pulseCount)])
    (htach : t.tach = (putTach o { a with pulseCount := 0 } s).tach) :
    ledger oid t = ledger oid s := by
  rw [ledger, ledger, hout, pulseCountOf_congr htach, pulseCountOf_putTach, reportedSum_append,
    reportedSum_tachResponse]
  split_ifs with e
  · rw [← e, pulseCountOf_eq ha, add_zero]
  · rw [add_zero]

/-- A call of tach_count adds one to the balance. -/
theorem ledger_of_countsPulse (hc : countsPulse i oid s = true) (h : exec i s = .next t) :
    ledger oid t = ledger oid s + 1 := by
  obtain ⟨n, a, ha, hexec⟩ := exec_of_countsPulse hc
  obtain rfl := Host.Outcome.next.inj (h.symm.trans hexec)
  rw [ledger, ledger, pulseCountOf_putTach, if_pos rfl, pulseCountOf_eq ha, ← BitVec.add_assoc]
  rfl

/-- An operation that neither calls tach_count nor is a report by hand keeps the balance. -/
theorem ledger_of_not_countsPulse (hc : countsPulse i oid s = false) (hreport : isReport i = false)
    (h : exec i s = .next t) : ledger oid t = ledger oid s := by
  cases exec_cases i s t h with
  | same ht | fatal _ _ _ ht | update _ _ _ _ _ ht | register _ _ _ _ _ _ _ _ _ ht
  | trigger _ _ _ _ _ _ _ _ ht | unregister _ _ _ _ _ _ ht | tick _ _ ht
  | isrNoop _ _ _ _ _ _ _ _ ht | expiry _ _ _ _ _ _ ht | drainTask _ _ _ ht =>
    exact ledger_congr (by simp [ht]) (by simp [ht])
  | pin _ _ _ _ _ _ _ ht =>
    rcases ht with rfl | rfl <;> exact ledger_congr rfl rfl
  | config o _ n _ _ _ hnew _ _ ht =>
    subst ht
    exact (ledger_congr rfl rfl).trans
      (ledger_putTach (b := newTach n) (pulseCountOf_new hnew).symm)
  | mode o _ a _ b _ _ _ ha _ hcount _ _ ht =>
    subst ht
    exact (ledger_congr (programLine_out ..) (programLine_tach ..)).trans
      (ledger_putTach (hcount.trans (pulseCountOf_eq ha).symm))
  | isrCount l n o a hi hf _ hn hr hh ho ha ht =>
    have hne : o ≠ oid := by
      rintro rfl
      exact absurd (countsPulse_iff.2 ⟨l, n, a, hi, hf, hn, hr, hh, ho, ha⟩) (by simp [hc])
    subst ht
    rw [ledger, pulseCountOf_putTach, if_neg hne]
    rfl
  | drainStep _ _ _ _ _ _ _ ha ht =>
    exact ledger_drained ha (by rw [ht]; rfl) (by rw [ht]; rfl)
  | response _ _ hi _ _ =>
    subst hi
    cases hreport

/-- A run's first operation answered a next state, from which the rest of the run went on. -/
theorem execAll_cons_inv {rest : List Instr} (h : execAll (i :: rest) s = .next t) :
    ∃ u, exec i s = .next u ∧ execAll rest u = .next t := by
  obtain ⟨u, hu⟩ := exec_total i s
  exact ⟨u, hu, by simpa only [execAll, hu] using h⟩

theorem pulseCalls_cons {rest : List Instr} (h : exec i s = .next t) :
    pulseCalls oid (i :: rest) s =
      (if countsPulse i oid s then 1 else 0) + pulseCalls oid rest t := by
  simp only [pulseCalls, h]

/-- One operation adds to the balance the number of its calls. -/
theorem ledger_exec (hreport : isReport i = false) (h : exec i s = .next t) :
    ledger oid t =
      ledger oid s + BitVec.ofNat 32 (if countsPulse i oid s = true then 1 else 0) := by
  cases hc : countsPulse i oid s with
  | true => exact ledger_of_countsPulse hc h
  | false => exact (ledger_of_not_countsPulse hc hreport h).trans (BitVec.add_zero _).symm

end Ledger

/-- Settles O51, by induction on the run. -/
theorem noHandlerInvocationIsLost : Obligations.NoHandlerInvocationIsLost := by
  intro run
  induction run with
  | nil =>
    intro s t oid _ h
    obtain rfl := Host.Outcome.next.inj h
    exact (BitVec.add_zero _).symm
  | cons i rest ih =>
    intro s t oid hreports h
    obtain ⟨hreport, hrest⟩ := List.forall_mem_cons.1 hreports
    obtain ⟨u, hu, ht⟩ := execAll_cons_inv h
    rw [ih u t oid hrest ht, ledger_exec hreport hu, pulseCalls_cons hu, BitVec.ofNat_add,
      BitVec.add_assoc]

end Sys2Proof.Machine
end

section
/-! The timer and the clock (42_tach_timer.md): what each of their operations answers, the due test,
and the fixed-rate schedule over a run (O53 to O58). -/

namespace Sys2Proof.Machine

/-! ### The operations (R190 to R192) -/

section Operations

variable {s : State}

theorem exec_updateTachTimer (hs : TaskReady s) (clock rest : Word) :
    exec (.updateTachTimer clock rest) s =
      .next { s with ttActive := rest != 0, ttWake := clock, ttRest := rest } := by
  obtain ⟨hf, hd⟩ := hs
  exact whenTask_of_ready hf hd _

theorem exec_clockTick (hs : Running s) :
    exec .clockTick s = .next { s with clock := s.clock + 1 } :=
  whenRunning_of_running hs _

/-- Whether the variant may fault on the expiry, in the rule's own terms. -/
theorem mayFaultLate_iff (s : State) :
    mayFaultLate s = true ↔ s.config.lateWakeFault = true ∧
      s.config.lateLimit.toNat ≤ (s.clock - s.ttWake).toNat := by
  simp [mayFaultLate]

theorem exec_timerIsr_inTime (hs : Running s) (hactive : s.ttActive = true)
    (hdue : due s.clock s.ttWake = true) (hlate : mayFaultLate s = false) :
    exec .timerIsr s = .next (expire s) := by
  simp [exec, execTimerIsr, hs, hactive, hdue, hlate]

theorem exec_timerIsr_late (hs : Running s) (hactive : s.ttActive = true)
    (hdue : due s.clock s.ttWake = true) (hlate : mayFaultLate s = true) :
    exec .timerIsr s =
      if Config.freeBit s.draws then
        Fatal .lateWake (encode .timerIsr) { s with draws := s.draws + 1 }
      else .next (expire { s with draws := s.draws + 1 }) := by
  simp [exec, execTimerIsr, hs, hactive, hdue, hlate, raiseFatal]

end Operations

/-- Settles O53: the frame's fields by packing. -/
theorem updateTachTimerReplacesTheWake : Obligations.UpdateTachTimerReplacesTheWake := by
  intro s clock rest hs
  exact ⟨by simp [encode], _, exec_updateTachTimer hs clock rest, rfl, rfl, bne_iff_ne, rfl⟩

/-- Settles O54: either condition rules out the late fault. -/
theorem timerIsrAdvancesTheWake : Obligations.TimerIsrAdvancesTheWake := by
  intro s hs hactive hdue hintime
  have hlate : mayFaultLate s = false := by
    rw [← Bool.not_eq_true, mayFaultLate_iff]
    rintro ⟨hvariant, hlimit⟩
    rcases hintime with hnever | hshort
    · exact absurd (hvariant.symm.trans hnever) (by simp)
    · exact absurd hlimit (Nat.not_le.2 hshort)
  exact exec_timerIsr_inTime hs hactive hdue hlate

/-- Settles O55, by the two values of the free draw. -/
theorem lateExpiryFaultsOrAdvances : Obligations.LateExpiryFaultsOrAdvances := by
  intro s hs hactive hdue hvariant hlimit
  rw [exec_timerIsr_late hs hactive hdue ((mayFaultLate_iff s).2 ⟨hvariant, hlimit⟩)]
  cases Config.freeBit s.draws with
  | true => exact .inl rfl
  | false => exact .inr rfl

/-- Settles O56: addition of words is modulo 2^32. -/
theorem clockTickAddsOne : Obligations.ClockTickAddsOne :=
  ⟨op_packFrame _ _ _ _ _,
    fun s hs => ⟨_, exec_clockTick hs, BitVec.toNat_add s.clock 1, rfl⟩⟩

/-! ### The due test (R193) -/

theorem due_iff (now w : Word) :
    due now w = true ↔ (now.toNat + 2 ^ 32 - w.toNat) % 2 ^ 32 < 2 ^ 31 := by
  rw [due, decide_eq_true_iff, BitVec.toNat_sub]
  have hw := w.isLt
  omega

/-- Only the distance of the two times counts. -/
theorem due_add_left (w x y : Word) : due (w + x) (w + y) = due x y := by
  rw [due, due, add_sub_add_left_eq_sub]

theorem due_iff_toInt (now w : Word) : due now w = true ↔ 0 ≤ (now - w).toInt := by
  rw [due, decide_eq_true_iff, BitVec.toInt_pos_iff]
  omega

theorem due_ahead (now : Word) {k : Nat} (hpos : 1 ≤ k) (hk : k ≤ 2 ^ 31) :
    due now (now + BitVec.ofNat 32 k) = false := by
  rw [← Bool.not_eq_true, due_iff, BitVec.toNat_add, BitVec.toNat_ofNat]
  omega

theorem due_behind (now : Word) {k : Nat} (hk : k ≤ 2 ^ 31 - 1) :
    due now (now - BitVec.ofNat 32 k) = true := by
  rw [due, sub_sub_cancel, BitVec.toNat_ofNat, decide_eq_true_iff]
  omega

theorem due_after_expiry (w rest : Word) {d : Nat} (hd : d < 2 ^ 31) :
    due (w + BitVec.ofNat 32 d) (w + rest) = true ↔
      rest.toNat ≤ d ∨ 2 ^ 31 + d < rest.toNat := by
  rw [due_add_left, due_iff, BitVec.toNat_ofNat]
  omega

/-- Settles O57. -/
theorem dueTest : Obligations.DueTest :=
  ⟨due_iff, due_iff_toInt, fun now _ => due_ahead now, fun now _ => due_behind now,
    fun w rest d hd => ⟨by rw [due_add_left, due, decide_eq_true_iff], due_after_expiry w rest hd⟩,
    fun w => due_ahead w (k := 0x80000000) (by decide) (by decide)⟩

/-! ### The fixed-rate schedule (R194) -/

section Schedule

variable {i : Instr} {s t : State}

/-- The expiries: a timer_isr of a running block with a scheduled, due timer and no late fault. -/
theorem expires_iff :
    expires i s = true ↔ i = .timerIsr ∧ s.fault = none ∧ s.ttActive = true ∧
      due s.clock s.ttWake = true ∧ (mayFaultLate s && Config.freeBit s.draws) = false := by
  simp only [expires, Bool.and_eq_true, Bool.not_eq_true', beq_iff_eq, Option.isNone_iff_eq_none,
    and_assoc]

/-- An expiry does what `expire` does; where the variant may fault, it takes a draw. -/
theorem exec_of_expires (h : expires i s = true) :
    ∃ d, exec i s = .next (expire { s with draws := d }) := by
  obtain ⟨rfl, hs, hactive, hdue, hpass⟩ := expires_iff.1 h
  cases hlate : mayFaultLate s with
  | false => exact ⟨s.draws, exec_timerIsr_inTime hs hactive hdue hlate⟩
  | true =>
    have hdraw : Config.freeBit s.draws = false := by simpa [hlate] using hpass
    exact ⟨s.draws + 1, by simp [exec_timerIsr_late hs hactive hdue hlate, hdraw]⟩

/-- An operation that is neither an expiry nor update_tach_timer keeps the wake time. -/
theorem ttWake_of_not_expires (hexp : expires i s = false) (hupdate : isUpdateTimer i = false)
    (h : exec i s = .next t) : t.ttWake = s.ttWake := by
  cases exec_cases i s t h with
  | same ht | fatal _ _ _ ht | config _ _ _ _ _ _ _ _ _ ht | mode _ _ _ _ _ _ _ _ _ _ _ _ _ ht
  | register _ _ _ _ _ _ _ _ _ ht | trigger _ _ _ _ _ _ _ _ ht | unregister _ _ _ _ _ _ ht
  | tick _ _ ht | isrNoop _ _ _ _ _ _ _ _ ht | isrCount _ _ _ _ _ _ _ _ _ _ _ _ ht
  | drainTask _ _ _ ht | drainStep _ _ _ _ _ _ _ _ ht | response _ _ _ _ ht =>
    simp [ht]
  | pin _ _ _ _ _ _ _ ht => rcases ht with rfl | rfl <;> rfl
  | update _ _ hi =>
    subst hi
    cases hupdate
  | expiry _ hi hs hactive hdue hpass =>
    have htrue := expires_iff.2 ⟨hi, hs, hactive, hdue, hpass⟩
    exact absurd (hexp.symm.trans htrue) (by simp)

/-- One operation advances the wake time by the interval for each expiry it is. -/
theorem ttWake_exec (hupdate : isUpdateTimer i = false) (h : exec i s = .next t) :
    t.ttWake = s.ttWake + BitVec.ofNat 32 (if expires i s = true then 1 else 0) * s.ttRest := by
  cases hexp : expires i s with
  | true =>
    obtain ⟨d, hexec⟩ := exec_of_expires hexp
    obtain rfl := Host.Outcome.next.inj (h.symm.trans hexec)
    simp
  | false => simp [ttWake_of_not_expires hexp hupdate h]

/-- Only update_tach_timer writes the interval and whether the timer is scheduled. -/
theorem ttActive_ttRest_exec (hupdate : isUpdateTimer i = false) (h : exec i s = .next t) :
    t.ttActive = s.ttActive ∧ t.ttRest = s.ttRest := by
  obtain ⟨-, -, hwriter, -⟩ := environmentAndTimerWriters i s t h
  have hkept : ¬ (t.ttActive ≠ s.ttActive ∨ t.ttRest ≠ s.ttRest) := by
    intro hchanged
    obtain ⟨clock, rest, rfl⟩ := hwriter hchanged
    cases hupdate
  simpa using hkept

theorem expiries_cons {run : List Instr} (h : exec i s = .next t) :
    expiries (i :: run) s = (if expires i s = true then 1 else 0) + expiries run t := by
  simp only [expiries, h]

/-- Over a run without update_tach_timer the wake time advances by the interval for each expiry. -/
theorem schedule_execAll {run : List Instr} (hupdates : ∀ i ∈ run, isUpdateTimer i = false)
    (h : execAll run s = .next t) :
    t.ttWake = s.ttWake + BitVec.ofNat 32 (expiries run s) * s.ttRest ∧
      t.ttRest = s.ttRest ∧ t.ttActive = s.ttActive := by
  induction run generalizing s with
  | nil =>
    obtain rfl := Host.Outcome.next.inj h
    simp [expiries]
  | cons i run ih =>
    obtain ⟨hupdate, hrun⟩ := List.forall_mem_cons.1 hupdates
    obtain ⟨u, hu, ht⟩ := execAll_cons_inv h
    obtain ⟨hactive, hrest⟩ := ttActive_ttRest_exec hupdate hu
    obtain ⟨hwake', hrest', hactive'⟩ := ih hrun ht
    refine ⟨?_, hrest'.trans hrest, hactive'.trans hactive⟩
    rw [hwake', ttWake_exec hupdate hu, hrest, expiries_cons hu, BitVec.ofNat_add, add_mul,
      add_assoc]

end Schedule

/-- Settles O58: the command sets the wake time and the interval, and the run advances them. -/
theorem fixedRateSchedule : Obligations.FixedRateSchedule := by
  intro s s0 t clock rest run hs hrest hupdate hrun h
  obtain rfl := Host.Outcome.next.inj ((exec_updateTachTimer hs clock rest).symm.trans hupdate)
  obtain ⟨hwake, hrest', hactive⟩ := schedule_execAll hrun h
  exact ⟨hwake, hrest', hactive.trans (bne_iff_ne.2 hrest)⟩

end Sys2Proof.Machine
end

section
/-! The order of service routines (60_exceptions.md R230): what a routine does when it does not
fault, as a guard and a total effect, and that the effects of two sources commute and keep each
other's guards (O35). -/

namespace Sys2Proof.Machine

/-! ### Guarded effects -/

/-- On a running block the operation ends without a fault exactly where `ok` holds, and there it
does `effect`. -/
def GuardedEffect (i : Instr) (ok : State → Prop) (effect : State → State) : Prop :=
  ∀ s t, (exec i s = .next t ∧ t.fault = none) ↔ (s.fault = none ∧ ok s ∧ t = effect s)

/-- Two operations whose effects commute, and where neither decides whether the other faults, end in
the same state in either order. -/
theorem GuardedEffect.comm {i j : Instr} {ok ok' : State → Prop} {effect effect' : State → State}
    (hi : GuardedEffect i ok effect) (hj : GuardedEffect j ok' effect')
    (hcomm : ∀ s, effect' (effect s) = effect (effect' s))
    (hok : ∀ s, ok (effect' s) ↔ ok s) (hok' : ∀ s, ok' (effect s) ↔ ok' s)
    {s u t u' t' : State} (hsu : exec i s = .next u) (hut : exec j u = .next t)
    (hsu' : exec j s = .next u') (hut' : exec i u' = .next t') (hf : t.fault = none) : t = t' := by
  obtain ⟨hfu, hju, rfl⟩ := (hj u t).1 ⟨hut, hf⟩
  obtain ⟨hfs, his, rfl⟩ := (hi s u).1 ⟨hsu, hfu⟩
  obtain ⟨hu', hfu'⟩ := (hj s _).2 ⟨hfs, (hok' s).1 hju, rfl⟩
  obtain rfl := Host.Outcome.next.inj (hu'.symm.trans hsu')
  obtain ⟨ht', -⟩ := (hi _ _).2 ⟨hfu', (hok s).2 his, rfl⟩
  rw [hcomm]
  exact Host.Outcome.next.inj (ht'.symm.trans hut')

/-! ### One more pulse in the instance table (41_tachometer.md R152) -/

/-- The instance table after one more pulse for `oid`; without that instance it is unchanged. -/
def addPulse (oid : Oid) (m : List (Oid × Tach)) : List (Oid × Tach) :=
  match m.lookup oid with
  | none => m
  | some a => keyPut oid { a with pulseCount := a.pulseCount + 1 } m

theorem addPulse_of_lookup {oid : Oid} {m : List (Oid × Tach)} {a : Tach}
    (h : m.lookup oid = some a) :
    addPulse oid m = keyPut oid { a with pulseCount := a.pulseCount + 1 } m := by
  simp only [addPulse, h]

theorem addPulse_of_lookup_none {oid : Oid} {m : List (Oid × Tach)} (h : m.lookup oid = none) :
    addPulse oid m = m := by
  simp only [addPulse, h]

theorem lookup_addPulse_ne {oid o : Oid} (h : o ≠ oid) (m : List (Oid × Tach)) :
    (addPulse oid m).lookup o = m.lookup o := by
  unfold addPulse
  split
  · rfl
  · exact lookup_keyPut_ne h _ m

/-- A pulse makes no instance and removes none. -/
theorem isSome_lookup_addPulse (oid o : Oid) (m : List (Oid × Tach)) :
    ((addPulse oid m).lookup o).isSome = (m.lookup o).isSome := by
  by_cases ho : o = oid
  · subst ho
    cases h : m.lookup o with
    | none => rw [addPulse_of_lookup_none h, h]
    | some a => rw [addPulse_of_lookup h, lookup_keyPut_self]; rfl
  · rw [lookup_addPulse_ne ho]

/-- Pulses are added in either order, for one instance or for two. -/
theorem addPulse_comm (oid o : Oid) (m : List (Oid × Tach)) :
    addPulse oid (addPulse o m) = addPulse o (addPulse oid m) := by
  by_cases ho : oid = o
  · rw [ho]
  have hoid := lookup_addPulse_ne ho m
  have ho' := lookup_addPulse_ne (Ne.symm ho) m
  cases h : m.lookup oid with
  | none => rw [addPulse_of_lookup_none (hoid.trans h), addPulse_of_lookup_none h]
  | some a =>
    cases h' : m.lookup o with
    | none => rw [addPulse_of_lookup_none h', addPulse_of_lookup_none (ho'.trans h')]
    | some b =>
      rw [addPulse_of_lookup (hoid.trans h), addPulse_of_lookup (ho'.trans h'),
        addPulse_of_lookup h, addPulse_of_lookup h', keyPut_comm ho]

/-! ### The routine of a line (R115) -/

/-- The oid that the routine of line n counts for, if it runs tach_count. -/
def countsFor (n : Line) (s : State) : Option Oid :=
  if requests s n = true ∧ s.handler[n] = .tachCount then s.owner[n] else none

/-- The routine of line n where it does not fault: it clears the line's flag and counts. -/
def serviced (n : Line) (s : State) : State :=
  { s with
    pf := if requests s n then s.pf.set n.val false n.isLt else s.pf
    tach := (countsFor n s).elim s.tach (addPulse · s.tach) }

/-- The routine of line n does not fault: the line exists, and tach_count finds its instance. -/
def Serviceable (n : Line) (s : State) : Prop :=
  n.val < s.config.nLines ∧ (requests s n = true → s.handler[n] = .tachCount →
    ∃ oid, s.owner[n] = some oid ∧ (s.tach.lookup oid).isSome = true)

section Line

variable {n k : Line} {s : State}

theorem serviced_pf (n : Line) (s : State) :
    (serviced n s).pf = if requests s n then s.pf.set n.val false n.isLt else s.pf := rfl

theorem serviced_tach (n : Line) (s : State) :
    (serviced n s).tach = (countsFor n s).elim s.tach (addPulse · s.tach) := rfl

theorem exec_lineIsr_idle {line : Byte} (hs : Running s) (hn : lineOfHandle s.config line = some n)
    (hr : requests s n = false) : exec (.lineIsr line) s = .next s := by
  simp [exec, execLineIsr, whenRunning_of_running hs, hn, hr]

theorem serviced_idle (hr : requests s n = false) : serviced n s = s := by
  simp [serviced, countsFor, hr]

theorem serviced_noop (hr : requests s n = true) (hh : s.handler[n] = .noop) :
    serviced n s = setPf n false s := by
  simp [serviced, countsFor, hr, hh, setPf]

theorem serviced_tachCount {oid : Oid} {a : Tach} (hr : requests s n = true)
    (hh : s.handler[n] = .tachCount) (ho : s.owner[n] = some oid) (ha : tachOf s oid = some a) :
    serviced n s = putTach oid { a with pulseCount := a.pulseCount + 1 } (setPf n false s) := by
  have hcounts : countsFor n s = some oid := by rw [countsFor, if_pos ⟨hr, hh⟩, ho]
  simp only [serviced, hr, hcounts, Option.elim, addPulse_of_lookup ha]
  rfl

/-- The routine of one line leaves whether another requests. -/
theorem requests_serviced (h : n ≠ k) : requests (serviced k s) n = requests s n := by
  refine requests_congr rfl rfl ?_ rfl rfl
  simp only [serviced_pf]
  split
  · exact set_sameElsewhere k s.pf false n h
  · rfl

theorem countsFor_serviced (h : n ≠ k) : countsFor n (serviced k s) = countsFor n s := by
  rw [countsFor, requests_serviced h]
  rfl

theorem isSome_lookup_serviced (k : Line) (s : State) (oid : Oid) :
    ((serviced k s).tach.lookup oid).isSome = (s.tach.lookup oid).isSome := by
  rw [serviced_tach]
  cases countsFor k s with
  | none => rfl
  | some o => exact isSome_lookup_addPulse o oid s.tach

theorem serviceable_serviced (h : n ≠ k) : Serviceable n (serviced k s) ↔ Serviceable n s := by
  simp only [Serviceable, requests_serviced h, isSome_lookup_serviced]
  rfl

/-- The flags are cleared and the pulses are added in either order. -/
theorem serviced_comm (h : n ≠ k) : serviced n (serviced k s) = serviced k (serviced n s) := by
  have hpf : (serviced n (serviced k s)).pf = (serviced k (serviced n s)).pf := by
    simp only [serviced_pf, requests_serviced h, requests_serviced h.symm]
    split_ifs
    · exact Vector.set_comm _ _ fun e => h (Fin.ext e.symm)
    all_goals rfl
  have htach : (serviced n (serviced k s)).tach = (serviced k (serviced n s)).tach := by
    simp only [serviced_tach, countsFor_serviced h, countsFor_serviced h.symm]
    cases countsFor n s with
    | none => rfl
    | some oid =>
      cases countsFor k s with
      | none => rfl
      | some o => exact addPulse_comm oid o s.tach
  show { s with pf := (serviced n (serviced k s)).pf, tach := (serviced n (serviced k s)).tach } = _
  rw [hpf, htach]
  rfl

theorem lineIsr_guardedEffect {a : Byte} (hn : n.val = a.toNat) :
    GuardedEffect (.lineIsr a) (Serviceable n) (serviced n) := by
  intro s t
  constructor
  · rintro ⟨h, hf⟩
    obtain ⟨hs, hlt, ⟨hr, rfl⟩ | ⟨hr, ⟨hh, rfl⟩ | ⟨oid, c, hh, ho, hc, rfl⟩⟩⟩ := lineIsr_inv hn hf h
    · exact ⟨hs, ⟨hlt, by simp [hr]⟩, (serviced_idle hr).symm⟩
    · exact ⟨hs, ⟨hlt, by simp [hh]⟩, (serviced_noop hr hh).symm⟩
    · exact ⟨hs, ⟨hlt, fun _ _ => ⟨oid, ho, Option.isSome_of_eq_some hc⟩⟩,
        (serviced_tachCount hr hh ho hc).symm⟩
  · rintro ⟨hs, ⟨hlt, hfound⟩, rfl⟩
    refine ⟨?_, hs⟩
    have hline := lineOfHandle_of_eq hn hlt
    cases hr : requests s n with
    | false => rw [exec_lineIsr_idle hs hline hr, serviced_idle hr]
    | true =>
      rw [exec_lineIsr hs hline hr]
      cases hh : s.handler[n] with
      | noop => rw [serviceLine_noop hh, settle_ok, serviced_noop hr hh]
      | tachCount =>
        obtain ⟨oid, ho, hsome⟩ := hfound hr hh
        obtain ⟨c, hc⟩ := Option.isSome_iff_exists.1 hsome
        rw [serviceLine_tachCount hh ho hc, settle_ok, serviced_tachCount hr hh ho hc]

/-- A routine that did not fault is one of a line. -/
theorem exists_line_of_lineIsr {a : Byte} {t : State} (h : exec (.lineIsr a) s = .next t)
    (hf : t.fault = none) : ∃ n : Line, n.val = a.toNat := by
  cases hl : lineOfHandle s.config a with
  | some n =>
    obtain ⟨hn, -⟩ := lineOfHandle_some hl
    exact ⟨n, hn⟩
  | none =>
    simp only [exec, execLineIsr, hl, settle_error] at h
    cases hs : s.fault with
    | none =>
      rw [whenRunning_of_running hs] at h
      obtain rfl := Host.Outcome.next.inj h
      cases hf
    | some x =>
      rw [whenRunning_of_halted hs] at h
      obtain rfl := Host.Outcome.next.inj h
      cases hs.symm.trans hf

end Line

/-! ### The routine of the timer (R191) -/

/-- The routine of the timer where it does not fault: an expiry while it is active and due. -/
def timerServiced (s : State) : State :=
  if s.ttActive && due s.clock s.ttWake then
    expire { s with draws := if mayFaultLate s then s.draws + 1 else s.draws }
  else s

/-- The routine of the timer does not fault: no expiry is late, or the draw lets it pass. -/
def TimerServiceable (s : State) : Prop :=
  (s.ttActive && due s.clock s.ttWake) = true → mayFaultLate s = true →
    Config.freeBit s.draws = false

section Timer

variable {s : State}

theorem exec_timerIsr_idle (hs : Running s) (h : ¬ (s.ttActive && due s.clock s.ttWake) = true) :
    exec .timerIsr s = .next s := by
  rw [exec, execTimerIsr, whenRunning_of_running hs, if_neg h]

theorem timerServiced_idle (h : ¬ (s.ttActive && due s.clock s.ttWake) = true) :
    timerServiced s = s := if_neg h

theorem timerServiced_due (h : (s.ttActive && due s.clock s.ttWake) = true) :
    timerServiced s = expire { s with draws := if mayFaultLate s then s.draws + 1 else s.draws } :=
  if_pos h

theorem timerIsr_guardedEffect : GuardedEffect .timerIsr TimerServiceable timerServiced := by
  intro s t
  constructor
  · rintro ⟨h, hf⟩
    obtain ⟨hs, ⟨hdue, rfl⟩ | ⟨hdue, ⟨hlate, hdraw, rfl⟩ | ⟨hlate, rfl⟩⟩⟩ := timerIsr_inv hf h
    · exact ⟨hs, fun hdue' => absurd hdue' hdue, (timerServiced_idle hdue).symm⟩
    · exact ⟨hs, fun _ _ => hdraw, by rw [timerServiced_due hdue, if_pos hlate]⟩
    · exact ⟨hs, by simp [TimerServiceable, hlate], by simp [timerServiced_due hdue, hlate]⟩
  · rintro ⟨hs, hpass, rfl⟩
    by_cases hdue : (s.ttActive && due s.clock s.ttWake) = true
    · obtain ⟨hactive, hdue'⟩ := Bool.and_eq_true_iff.1 hdue
      rw [timerServiced_due hdue]
      refine ⟨?_, hs⟩
      cases hlate : mayFaultLate s with
      | false => exact exec_timerIsr_inTime hs hactive hdue' hlate
      | true => simp [exec_timerIsr_late hs hactive hdue' hlate, hpass hdue hlate]
    · rw [timerServiced_idle hdue]
      exact ⟨exec_timerIsr_idle hs hdue, hs⟩

/-- What the timer's routine writes, no line's routine reads, and the reverse. -/
theorem timerServiced_serviced (n : Line) (s : State) :
    timerServiced (serviced n s) = serviced n (timerServiced s) := by
  by_cases h : (s.ttActive && due s.clock s.ttWake) = true
  · rw [timerServiced_due h, timerServiced_due (s := serviced n s) h]
    rfl
  · rw [timerServiced_idle h, timerServiced_idle (s := serviced n s) h]

theorem serviceable_timerServiced (n : Line) (s : State) :
    Serviceable n (timerServiced s) ↔ Serviceable n s := by
  by_cases h : (s.ttActive && due s.clock s.ttWake) = true
  · rw [timerServiced_due h]
    rfl
  · rw [timerServiced_idle h]

end Timer

/-- Settles O35: the routines of two lines, or of a line and the timer, have effects that commute,
and neither makes the other fault. -/
theorem serviceRoutinesCommute : Obligations.ServiceRoutinesCommute := by
  constructor
  · intro s u t u' t' a b hab hsu hut hsu' hut' hf
    obtain ⟨k, hk⟩ := exists_line_of_lineIsr hut hf
    have hb := lineIsr_guardedEffect hk
    obtain ⟨hfu, -⟩ := (hb u t).1 ⟨hut, hf⟩
    obtain ⟨n, hn⟩ := exists_line_of_lineIsr hsu hfu
    have hnk : n ≠ k := by
      rintro rfl
      exact hab (BitVec.eq_of_toNat_eq (hn.symm.trans hk))
    exact (lineIsr_guardedEffect hn).comm hb (fun _ => serviced_comm hnk.symm)
      (fun _ => serviceable_serviced hnk) (fun _ => serviceable_serviced hnk.symm)
      hsu hut hsu' hut' hf
  · intro s u t u' t' a hsu hut hsu' hut' hf
    obtain ⟨hfu, -⟩ := timerIsr_inv hf hut
    obtain ⟨n, hn⟩ := exists_line_of_lineIsr hsu hfu
    exact (lineIsr_guardedEffect hn).comm timerIsr_guardedEffect (timerServiced_serviced n)
      (serviceable_timerServiced n) (fun _ => Iff.rfl) hsu hut hsu' hut' hf

end Sys2Proof.Machine
end

section
/-! Fatal errors (60_exceptions.md R220): an operation that raises one records its code and its own
frame and writes nothing else (O20), and where a service routine raises one (O23). -/

namespace Sys2Proof.Machine

/-! ### How an operation can end on a running block -/

/-- What an operation with frame `f` may answer from `s`: a next state without a fault, or the fatal
error of its frame over `s`, with free draws spent at most. -/
def PreciseFor (f : Frame) (s : State) (r : Result) : Prop :=
  ∀ t, r = .next t → Running t ∨ ∃ c d, t = { s with fault := some (c, f), draws := d }

/-- What an operation computed before it settles holds no fault. -/
def OkRunning (r : Except FaultCode State) : Prop := ∀ u, r = .ok u → Running u

section Endings

variable {f : Frame} {s : State}

theorem okRunning_ok {u : State} (hu : Running u) : OkRunning (.ok u) := by
  rintro _ ⟨⟩
  exact hu

theorem okRunning_error (c : FaultCode) : OkRunning (.error c) := by
  rintro _ ⟨⟩

theorem preciseFor_next {u : State} (hu : Running u) : PreciseFor f s (.next u) := by
  rintro _ ⟨⟩
  exact .inl hu

theorem preciseFor_raiseFatal (c : FaultCode) (d : Nat) :
    PreciseFor f s (.next (raiseFatal c f { s with draws := d })) := by
  rintro _ ⟨⟩
  exact .inr ⟨c, d, rfl⟩

theorem preciseFor_settle {r : Except FaultCode State} (hr : OkRunning r) :
    PreciseFor f s (settle f s r) := by
  cases r with
  | ok u => exact preciseFor_next (hr u rfl)
  | error c => exact preciseFor_raiseFatal c s.draws

theorem preciseFor_whenRunning (hs : Running s) {r : Result} (hr : PreciseFor f s r) :
    PreciseFor f s (whenRunning s r) := by
  rwa [whenRunning_of_running hs]

theorem preciseFor_whenTask (hs : Running s) {r : Result} (hr : PreciseFor f s r) :
    PreciseFor f s (whenTask s r) := by
  obtain ⟨-, h⟩ | ⟨-, h⟩ := whenTask_cases s r <;> rw [h]
  · exact hr
  · exact preciseFor_next hs

theorem preciseFor_illegalFrame (hs : Running s) : PreciseFor f s (illegalFrame f s) :=
  preciseFor_whenRunning hs (preciseFor_raiseFatal .invalidCommand s.draws)

end Endings

/-! ### What each operation computes before it settles -/

section Computed

variable {s : State}

theorem okRunning_lineRegister (hs : Running s) (owner : Oid) (h : Handler) (pin : Pin) :
    OkRunning ((lineRegister owner h pin s).map Prod.snd) := by
  cases hp : lineOfPin s.config pin with
  | none =>
    rw [lineRegister, hp]
    exact okRunning_error _
  | some n =>
    rw [lineRegister_mapped hp]
    exact okRunning_ok hs

theorem okRunning_armLine (hs : Running s) (n : Line) (m : Option Mode) :
    OkRunning (armLine n m s) := by
  unfold armLine
  split
  · exact okRunning_ok ((programLine_fault n m s).trans hs)
  · exact okRunning_error _

theorem okRunning_applyMode (hs : Running s) (oid : Oid) (a : Tach) (m : Option Mode) :
    OkRunning (applyMode oid a m s) := by
  by_cases h : InMode a m
  · rw [applyMode_of_inMode h]
    exact okRunning_ok hs
  · rw [applyMode_of_not_inMode h]
    exact okRunning_armLine (s := putTach oid _ s) hs a.line m

theorem okRunning_serviceLine (hs : Running s) (n : Line) : OkRunning (serviceLine n s) := by
  unfold serviceLine
  split
  · exact okRunning_ok hs
  · obtain ⟨oid, a, -, -, h⟩ | ⟨-, h⟩ := tachCount_cases s.owner[n] (setPf n false s) <;> rw [h]
    · exact okRunning_ok hs
    · exact okRunning_error _

/-- On a running block every operation ends without a fault or in the fatal error of its own
frame. -/
theorem preciseFor_exec (hs : Running s) (i : Instr) : PreciseFor (encode i) s (exec i s) := by
  cases i with
  | configTachometer oid pin =>
    refine preciseFor_whenTask hs (preciseFor_settle ?_)
    split
    · exact okRunning_error _
    · split
      · exact okRunning_error _
      · split
        · exact okRunning_error _
        · exact okRunning_lineRegister (s := putTach oid _ s) hs oid .tachCount pin
  | updateTachTimer _ _ => exact preciseFor_whenTask hs (preciseFor_next hs)
  | setTachIrqState oid mode =>
    refine preciseFor_whenTask hs (preciseFor_settle ?_)
    split
    · exact okRunning_error _
    · split
      · exact okRunning_error _
      · exact okRunning_applyMode hs oid _ _
  | lineRegister owner hsel pin =>
    simp only [exec, execLineRegister]
    split
    · exact preciseFor_illegalFrame hs
    · exact preciseFor_whenTask hs (preciseFor_settle (okRunning_lineRegister hs owner _ pin))
  | lineSetTriggerMode line mode =>
    refine preciseFor_whenTask hs (preciseFor_settle ?_)
    split
    · exact okRunning_error _
    · split
      · exact okRunning_error _
      · exact okRunning_ok ((programLine_fault _ _ s).trans hs)
  | lineUnregister line =>
    refine preciseFor_whenTask hs (preciseFor_settle ?_)
    split
    · exact okRunning_error _
    · exact okRunning_ok ((programLine_fault _ none s).trans hs)
  | pinChange level pin =>
    simp only [exec, execPinChange]
    split
    · exact preciseFor_illegalFrame hs
    · refine preciseFor_whenRunning hs (preciseFor_next ?_)
      cases hp : lineOfPin s.config pin with
      | none => rwa [pinChanges_unmapped hp]
      | some n => rwa [pinChanges_frame hp]
  | clockTick => exact preciseFor_whenRunning hs (preciseFor_next hs)
  | lineIsr line =>
    refine preciseFor_whenRunning hs ?_
    split
    · exact preciseFor_settle (okRunning_error _)
    · split
      · exact preciseFor_settle (okRunning_serviceLine hs _)
      · exact preciseFor_next hs
  | timerIsr =>
    refine preciseFor_whenRunning hs ?_
    split
    · split
      · split
        · exact preciseFor_raiseFatal .lateWake (s.draws + 1)
        · exact preciseFor_next hs
      · exact preciseFor_next hs
    · exact preciseFor_next hs
  | drainTask =>
    refine preciseFor_whenTask hs ?_
    split <;> exact preciseFor_next hs
  | drainStep oid =>
    refine preciseFor_whenRunning hs ?_
    split
    · exact preciseFor_next hs
    · split
      · split <;> exact preciseFor_next hs
      · exact preciseFor_next hs
  | tachResponse _ _ => exact preciseFor_whenRunning hs (preciseFor_next hs)

end Computed

/-- Settles O20: of the two ways an operation can end, a fault leaves the second. -/
theorem fatalErrorsArePrecise : Obligations.FatalErrorsArePrecise := by
  intro i s t c f hs h hfault
  obtain hrunning | ⟨c', d, rfl⟩ := preciseFor_exec hs i t h
  · cases hrunning.symm.trans hfault
  · cases hfault
    exact ⟨rfl, rfl⟩

/-! ### Where a service routine faults (R224; 40_line_controller.md R115, 41_tachometer.md R152) -/

theorem exec_lineIsr_noLine {s : State} {line : Byte} (hs : Running s)
    (hn : lineOfHandle s.config line = none) :
    exec (.lineIsr line) s = Fatal .invalidLine (encode (.lineIsr line)) s := by
  simp only [exec, execLineIsr, whenRunning_of_running hs, hn, settle_error, raiseFatal]

/-- The TachCount handler of an owner that is not configured has nothing to count for. -/
theorem serviceLine_unknownOid {s : State} {n : Line} {oid : Oid} (hh : s.handler[n] = .tachCount)
    (ho : s.owner[n] = some oid) (hnone : tachOf s oid = none) :
    serviceLine n s = .error .unknownOid := by
  have hnone' : tachOf (setPf n false s) oid = none := hnone
  simp only [serviceLine, hh, tachCount, ho, hnone']

/-- Settles O23: the error is settled over the state at entry, its flag still set. -/
theorem serviceRoutineFaults : Obligations.ServiceRoutineFaults := by
  intro s hs
  constructor
  · intro line hline
    exact exec_lineIsr_noLine hs (lineOfHandle_of_le hline)
  · intro line n oid hline hn hr hh ho hnone
    rw [exec_lineIsr hs (lineOfHandle_of_eq hline hn) hr, serviceLine_unknownOid hh ho hnone]
    rfl

end Sys2Proof.Machine
end

section
/-! Operations that are not taken: those not enabled (O12), those of a halted block and those of the
task context during a drain; and the state after reset, where nothing is enabled (O16) and the
invariant holds (O17, O18). -/

namespace Sys2Proof.Machine

/-! ### Routines and drains that are not enabled (R115, R153, R155, R191) -/

theorem exec_drainTask_idle {s : State} (h : s.wakeFlag = false ∨ s.drainLeft ≠ none) :
    exec .drainTask s = .next s := by
  obtain hwake | hdraining := h
  · have hskip : exec .drainTask s = whenTask s (.next s) := by simp [exec, execDrainTask, hwake]
    obtain ⟨-, h⟩ | ⟨-, h⟩ := whenTask_cases s (.next s) <;> rw [hskip, h]
  · obtain ⟨left, hd⟩ := Option.ne_none_iff_exists'.1 hdraining
    exact whenTask_of_draining hd _

theorem exec_drainStep_idle {s : State} {oid : Oid} (hs : Running s)
    (h : ∀ left, s.drainLeft = some left → oid ∉ left) : exec (.drainStep oid) s = .next s := by
  rw [exec, execDrainStep, whenRunning_of_running hs]
  cases hd : s.drainLeft with
  | none => rfl
  | some left =>
    have hread : left.contains oid = false := by simpa using h left hd
    simp only [hread, Bool.false_eq_true, if_false]

/-- Settles O12: each operation's own condition for being taken fails. -/
theorem stepsNotEnabledChangeNothing : Obligations.StepsNotEnabledChangeNothing := by
  intro s hs
  refine ⟨fun _ n hline hn hr => exec_lineIsr_idle hs (lineOfHandle_of_eq hline hn) hr,
    fun h => exec_timerIsr_idle hs ?_, exec_drainTask_idle, fun _ => exec_drainStep_idle hs⟩
  rcases h with h | h <;> simp [h]

/-! ### The state after reset (70_reset_and_hazards.md R260, R261; 10_state.md R51) -/

theorem requests_resetWith (c : Config) (clock : Word) (high : List Pin) (n : Line) :
    requests (State.resetWith c clock high) n = false := by
  simp [requests, State.resetWith]

/-- Settles O16: no line is enabled, the timer is inactive, the wake signal is down and no drain is
in progress, so by O12 nothing is taken. -/
theorem nothingIsPendingAfterReset : Obligations.NothingIsPendingAfterReset := by
  intro c clock high s
  obtain ⟨hline, htimer, hdrain, hread⟩ := stepsNotEnabledChangeNothing s rfl
  have hquiet : ∀ n, requests s n = false := requests_resetWith c clock high
  exact ⟨hquiet, rfl, fun h n hn hlt => hline h n hn hlt (hquiet n), htimer (.inl rfl),
    hdrain (.inl rfl), fun oid => hread oid (fun _ hleft => by cases hleft)⟩

/-- Settles O18: the empty tables and the mapped levels after reset. -/
theorem everyResetMeetsTheInvariant : Obligations.EveryResetMeetsTheInvariant :=
  fun _ clock high hc => blockInv_resetWith hc clock high

/-- The reference variant meets rule R5: its lines are 0 and 1, on the default positions. -/
theorem wf_ref2 : Config.ref2.Wf := by
  have hbits : Config.ref2.modeBits = [0, 2, 1, 3] := rfl
  refine ⟨by decide, by decide, by decide, by simp [Config.ref2], ?_, by decide, by decide⟩
  rw [hbits]
  decide

/-- Settles O17: REF2 is one of the variants of O18. -/
theorem resetStateMeetsTheInvariant : Obligations.ResetStateMeetsTheInvariant :=
  everyResetMeetsTheInvariant Config.ref2 0 [] wf_ref2

/-! ### A halted block, and a drain in progress (60_exceptions.md R222, 10_state.md R52) -/

theorem exec_of_halted {s : State} {x : FaultCode × Frame} (hx : s.fault = some x) (i : Instr) :
    exec i s = .next s := by
  cases i with
  | configTachometer _ _ | updateTachTimer _ _ | setTachIrqState _ _ | lineSetTriggerMode _ _
  | lineUnregister _ | drainTask => exact whenTask_of_halted hx _
  | clockTick | lineIsr _ | timerIsr | drainStep _ | tachResponse _ _ =>
    exact whenRunning_of_halted hx _
  | lineRegister _ _ _ =>
    simp only [exec, execLineRegister]
    split
    · exact whenRunning_of_halted hx _
    · exact whenTask_of_halted hx _
  | pinChange _ _ =>
    simp only [exec, execPinChange]
    split <;> exact whenRunning_of_halted hx _

theorem runFrame_of_halted {s : State} {x : FaultCode × Frame} (hx : s.fault = some x)
    (d : Except DecodeReject Instr) (f : Frame) : runFrame d f s = .next s := by
  cases d with
  | ok i => exact exec_of_halted hx i
  | error _ => exact whenRunning_of_halted hx _

theorem exec_lineRegister_of_draining {s : State} {left : List Oid} (hd : s.drainLeft = some left)
    {hsel : Byte} (hsel1 : hsel.toNat ≤ 1) (owner : Oid) (pin : Pin) :
    exec (.lineRegister owner hsel pin) s = .next s := by
  simp only [exec, execLineRegister, handlerOf_of_le hsel1, whenTask_of_draining hd]

end Sys2Proof.Machine
end

section
/-! The schedule: what one step makes of each turn (O8, O9), the reset (O15), a halted block (O10),
a drain in progress (O13), and that a step stops only when halted with no turn left (O11). The last
part settles the sample frames (O5). -/

namespace Sys2Proof.Machine

/-! ### A step is the turn it spends -/

theorem step_of_turn {s : State} {turn : Turn} {rest : List Turn} (h : s.turns = turn :: rest) :
    step s = takeTurn turn { s with turns := rest } := by
  simp only [step, h]

theorem step_of_no_turn {s : State} (h : s.turns = []) :
    step s = if s.fault.isSome then .fault .halted else .next s := by
  simp only [step, h]

section Turns

variable {s : State} {f : Frame}

theorem takeTurn_agent (h : f.hostSpace = false) :
    takeTurn (.agent f) s = runFrame (decode f) f s := by
  simp [takeTurn, h]

theorem takeTurn_agent_hostSpace (h : f.hostSpace = true) : takeTurn (.agent f) s = .next s :=
  if_pos h

theorem takeCommand_of_ready {queue : List Frame} (hs : TaskReady s) (h : s.inbox = f :: queue) :
    takeCommand s = some (f, { s with inbox := queue }) := by
  obtain ⟨hf, hd⟩ := hs
  simp [takeCommand, hf, hd, h]

theorem takeCommand_of_halted {x : FaultCode × Frame} (hx : s.fault = some x) :
    takeCommand s = none := by
  simp [takeCommand, hx]

theorem takeCommand_of_draining {left : List Oid} (hd : s.drainLeft = some left) :
    takeCommand s = none := by
  simp [takeCommand, hd]

/-- The command taken up is the oldest one sent. -/
theorem inbox_of_takeCommand {u : State} (h : takeCommand s = some (f, u)) :
    s.inbox = f :: u.inbox := by
  unfold takeCommand at h
  split at h
  · cases h
  · split at h
    · cases h
    · rename_i hinbox
      cases h
      exact hinbox

theorem takeTurn_runCommand_none (h : takeCommand s = none) : takeTurn .runCommand s = .next s := by
  simp only [takeTurn, h]

theorem takeTurn_runCommand {u : State} (h : takeCommand s = some (f, u)) :
    takeTurn .runCommand s = runFrame (decodeHost f) f u := by
  simp only [takeTurn, h]

end Turns

/-- Settles O8: a step is the turn it spends, and a turn runs what its frame decodes to. -/
theorem stepRunsTheDecodedInstruction : Obligations.StepRunsTheDecodedInstruction := by
  have hagent : ∀ (s : State) (f : Frame) (rest : List Turn), s.turns = .agent f :: rest →
      f.hostSpace = false → step s = runFrame (decode f) f { s with turns := rest } := by
    intro s f rest hturns hspace
    rw [step_of_turn hturns, takeTurn_agent hspace]
  have hcommand : ∀ (s : State) (f : Frame) (queue : List Frame) (rest : List Turn),
      TaskReady s → s.turns = .runCommand :: rest → s.inbox = f :: queue →
      step s = runFrame (decodeHost f) f { s with turns := rest, inbox := queue } := by
    intro s f queue rest hs hturns hinbox
    rw [step_of_turn hturns,
      takeTurn_runCommand (takeCommand_of_ready (s := { s with turns := rest }) hs hinbox)]
  refine ⟨hagent, ?_, hcommand, ?_, ?_⟩
  · intro s f rest hturns hspace
    rw [step_of_turn hturns, takeTurn_agent_hostSpace hspace]
  · intro s f rest i hturns hspace hdecode
    rw [hagent s f rest hturns hspace, hdecode, runFrame]
  · intro s f queue rest i hs hturns hinbox hspace hdecode
    rw [hcommand s f queue rest hs hturns hinbox, decodeHost_of_hostSpace hspace, hdecode, runFrame]

/-- Settles O15: the reset's turn resets, and the schedule and the count of draws go on. -/
theorem resetRestartsTheBlock : Obligations.ResetRestartsTheBlock :=
  fun _ _ _ _ hturns => step_of_turn hturns

/-! ### The queue of sent frames (20_memory.md R75) -/

/-- No operation touches the queue. -/
theorem exec_inbox {i : Instr} {s t : State} (h : exec i s = .next t) : t.inbox = s.inbox := by
  cases exec_cases i s t h with
  | same ht | fatal _ _ _ ht | config _ _ _ _ _ _ _ _ _ ht | update _ _ _ _ _ ht
  | mode _ _ _ _ _ _ _ _ _ _ _ _ _ ht | register _ _ _ _ _ _ _ _ _ ht
  | trigger _ _ _ _ _ _ _ _ ht | unregister _ _ _ _ _ _ ht | tick _ _ ht
  | isrNoop _ _ _ _ _ _ _ _ ht | isrCount _ _ _ _ _ _ _ _ _ _ _ _ ht | expiry _ _ _ _ _ _ ht
  | drainTask _ _ _ ht | drainStep _ _ _ _ _ _ _ _ ht | response _ _ _ _ ht =>
    simp [ht]
  | pin _ _ _ _ _ _ _ ht => rcases ht with rfl | rfl <;> rfl

theorem runFrame_inbox {d : Except DecodeReject Instr} {f : Frame} {s t : State}
    (h : runFrame d f s = .next t) : t.inbox = s.inbox := by
  cases d with
  | ok i => exact exec_inbox h
  | error _ =>
    obtain rfl | ⟨-, h⟩ := whenRunning_inv h
    · rfl
    · cases h
      rfl

/-- What each turn makes of the queue. -/
theorem takeTurn_inbox {turn : Turn} {s t : State} (h : takeTurn turn s = .next t) :
    t.inbox = s.inbox ∨ (∃ f, turn = .hostSends f ∧ t.inbox = s.inbox ++ [f]) ∨
      (∃ f, turn = .runCommand ∧ s.inbox = f :: t.inbox) ∨
      (∃ clock high, turn = .reset clock high ∧ t.inbox = []) := by
  cases turn with
  | hostSends f =>
    cases h
    unfold hostSends
    split
    · exact .inl rfl
    · exact .inr (.inl ⟨f, rfl, rfl⟩)
  | runCommand =>
    cases hc : takeCommand s with
    | none =>
      rw [takeTurn_runCommand_none hc] at h
      cases h
      exact .inl rfl
    | some taken =>
      obtain ⟨f, u⟩ := taken
      rw [takeTurn_runCommand hc] at h
      exact .inr (.inr (.inl ⟨f, rfl, runFrame_inbox h ▸ inbox_of_takeCommand hc⟩))
  | agent f =>
    cases hf : f.hostSpace with
    | true =>
      rw [takeTurn_agent_hostSpace hf] at h
      cases h
      exact .inl rfl
    | false =>
      rw [takeTurn_agent hf] at h
      exact .inl (runFrame_inbox h)
  | hostTakes =>
    cases h
    unfold hostTakes
    split <;> exact .inl rfl
  | reset clock high =>
    cases h
    exact .inr (.inr (.inr ⟨clock, high, rfl, rfl⟩))

/-- Settles O9: the host's two turns by their definitions, and the queue by what each turn makes of
it. -/
theorem hostChannelKeepsOrder : Obligations.HostChannelKeepsOrder := by
  refine ⟨fun s f rest hs hturns => ?_, fun s f others rest hs hturns hout => ?_,
    fun s t h => ?_⟩
  · simp [step_of_turn hturns, takeTurn, hostSends, hs]
  · simp [step_of_turn hturns, takeTurn, hostTakes, hs, hout]
  · cases hturns : s.turns with
    | nil =>
      rw [step_of_no_turn hturns] at h
      split at h <;> cases h
      exact .inl rfl
    | cons turn rest =>
      rw [step_of_turn hturns] at h
      obtain hq | ⟨f, rfl, hq⟩ | ⟨f, rfl, hq⟩ | ⟨clock, high, rfl, hq⟩ := takeTurn_inbox h
      · exact .inl hq
      · exact .inr (.inl ⟨f, rest, rfl, hq⟩)
      · exact .inr (.inr (.inl ⟨f, rest, rfl, hq⟩))
      · exact .inr (.inr (.inr ⟨clock, high, rest, rfl, hq⟩))

/-! ### Turns that are not taken (60_exceptions.md R222, 10_state.md R52) -/

/-- No turn but a reset is taken while the block is halted. -/
theorem takeTurn_of_halted {turn : Turn} {s : State} {x : FaultCode × Frame}
    (hx : s.fault = some x) (hreset : ∀ clock high, turn ≠ .reset clock high) :
    takeTurn turn s = .next s := by
  cases turn with
  | hostSends _ => simp [takeTurn, hostSends, hx]
  | runCommand => exact takeTurn_runCommand_none (takeCommand_of_halted hx)
  | agent f =>
    cases hf : f.hostSpace with
    | true => exact takeTurn_agent_hostSpace hf
    | false => rw [takeTurn_agent hf, runFrame_of_halted hx]
  | hostTakes => simp [takeTurn, hostTakes, hx]
  | reset clock high => exact absurd rfl (hreset clock high)

/-- Settles O10: operations and turns are guarded, and a reset is not. -/
theorem haltedBlockTakesNoStep : Obligations.HaltedBlockTakesNoStep := by
  intro s x hx
  refine ⟨exec_of_halted hx, fun turn rest hturns hreset => ?_, fun clock high rest hturns => ?_⟩
  · rw [step_of_turn hturns, takeTurn_of_halted (s := { s with turns := rest }) hx hreset]
  · exact ⟨_, resetRestartsTheBlock s clock high rest hturns, rfl⟩

/-- Settles O13: each of the operations is a task-context step, and the task context takes up no
command. -/
theorem drainExcludesOtherTaskSteps : Obligations.DrainExcludesOtherTaskSteps := by
  intro s left hd
  refine ⟨fun _ _ => whenTask_of_draining hd _, fun _ _ => whenTask_of_draining hd _,
    fun _ _ => whenTask_of_draining hd _,
    fun owner _ pin hsel1 => exec_lineRegister_of_draining hd hsel1 owner pin,
    fun _ _ => whenTask_of_draining hd _, fun _ => whenTask_of_draining hd _,
    whenTask_of_draining hd _, fun rest hturns => ?_⟩
  rw [step_of_turn hturns,
    takeTurn_runCommand_none (takeCommand_of_draining (s := { s with turns := rest }) hd)]

/-! ### Every turn answers a next state -/

theorem runFrame_total (d : Except DecodeReject Instr) (f : Frame) (s : State) :
    ∃ t, runFrame d f s = .next t := by
  cases d with
  | ok i => exact exec_total i s
  | error _ => exact illegalFrame_total f s

theorem takeTurn_total (turn : Turn) (s : State) : ∃ t, takeTurn turn s = .next t := by
  cases turn with
  | hostSends _ | hostTakes | reset _ _ => exact ⟨_, rfl⟩
  | runCommand =>
    cases hc : takeCommand s with
    | none => exact ⟨s, takeTurn_runCommand_none hc⟩
    | some taken =>
      obtain ⟨f, u⟩ := taken
      rw [takeTurn_runCommand hc]
      exact runFrame_total _ f u
  | agent f =>
    cases hf : f.hostSpace with
    | true => exact ⟨s, takeTurn_agent_hostSpace hf⟩
    | false =>
      rw [takeTurn_agent hf]
      exact runFrame_total _ f s

/-- A step answers a next state, or the block is stuck: halted, with no turn left. -/
theorem step_cases (s : State) :
    (∃ t, step s = .next t ∧ ¬ (s.turns = [] ∧ s.fault ≠ none)) ∨
      (step s = .fault .halted ∧ s.turns = [] ∧ s.fault ≠ none) := by
  cases hturns : s.turns with
  | nil =>
    rw [step_of_no_turn hturns]
    cases hf : s.fault with
    | none => exact .inl ⟨s, rfl, by simp⟩
    | some x => exact .inr ⟨rfl, rfl, by simp⟩
  | cons turn rest =>
    rw [step_of_turn hturns]
    obtain ⟨t, ht⟩ := takeTurn_total turn { s with turns := rest }
    exact .inl ⟨t, ht, by simp⟩

/-- Settles O11: turns and operations answer next states, so only the stuck state stops. -/
theorem stepStopsOnlyWhenHaltedForGood : Obligations.StepStopsOnlyWhenHaltedForGood := by
  refine ⟨fun s r => ?_, fun s r => ?_, exec_total⟩
  · obtain ⟨t, ht, hlive⟩ | ⟨hstop, hturns, hf⟩ := step_cases s
    · rw [ht]
      exact ⟨nofun, fun ⟨_, hstuck⟩ => absurd hstuck hlive⟩
    · rw [hstop]
      refine ⟨fun h => ?_, fun ⟨h, _⟩ => by rw [h]⟩
      cases h
      exact ⟨rfl, hturns, hf⟩
  · obtain ⟨t, ht, -⟩ | ⟨hstop, -⟩ := step_cases s
    · simp [ht]
    · simp [hstop]

/-! ### The sample frames (95_test_vectors.md section 2.1) -/

/-- Settles O5: each legal sample is the frame of its operation, and no opcode is 0x04. -/
theorem sampleFramesDecode : Obligations.SampleFramesDecode := by
  refine ⟨decode_ok_iff.2 ⟨?_, rfl⟩, decode_ok_iff.2 ⟨?_, rfl⟩, decode_ok_iff.2 ⟨?_, rfl⟩,
    decode_ok_iff.2 ⟨?_, rfl⟩, decode_ok_iff.2 ⟨?_, rfl⟩, decode_ok_iff.2 ⟨?_, rfl⟩, ?_⟩ <;> decide

end Sys2Proof.Machine
end
